-- ==== Sys2Proof/Word.lean ====
section
/-! DEFINITION. The TFC's two word types and the host port's byte order (20_memory.md R33). -/

namespace Sys2Proof

/-- One datum the TFC moves: a framebuffer byte, a glyph byte or a byte sent on the bus (R33). -/
abbrev Byte := BitVec 8

/-- The 16-bit command word and the two 16-bit views, each delivered whole (R33, R45). -/
abbrev Word := BitVec 16

/-- `HOST_BYTE_ORDER` (00_scope.md R7): which byte of a 16-bit word a byte-wide host port carries first. -/
inductive ByteOrder where
  | lowFirst
  | highFirst
deriving DecidableEq, Repr

end Sys2Proof
end

