-- ==== Sys2Proof/Syntax.lean ====
section
/-! DEFINITION. The host commands, one constructor per row of spec/opcode_table.json (30_encoding.md R47, R48). -/

namespace Sys2Proof

/-- The voltage-source mode, INIT's operand `V` and the register `VSRC` (10_state.md R16). -/
inductive VSource where
  /-- 0: the panel's own charge pump. -/
  | internal
  /-- 1: an external supply. -/
  | external
deriving DecidableEq, Repr

/-- The six host commands. Operands are natural numbers (00_scope.md R10); `Instr.wellFormed` says which fit the
command word's fields (30_encoding.md R48, R51). -/
inductive Instr where
  /-- INIT, 41_init.md R54. -/
  | init (v : VSource)
  /-- CLEAR, 42_direct_path.md R64. -/
  | clear
  /-- SETCUR, 42_direct_path.md R63. -/
  | setcur (row col : Nat)
  /-- WRCHR, 42_direct_path.md R67. -/
  | wrchr (ch : Nat)
  /-- PRCHR, 43_buffered_print.md R68. -/
  | prchr (ch : Nat)
  /-- FLUSH, 44_flush.md R80. -/
  | flush
deriving DecidableEq, Repr

end Sys2Proof
end

