-- ==== Sys2Proof/Config.lean ====
section
/-! DEFINITION. The parameters of 00_scope.md R7 as one record of plain data, and the free values. The parameters derived
from these (`LEN`, `ROWB`, `CHAR_ROWS`, `INIT_SEQ`), the constraints of R8 and the values of R7 and R9 stand in
Machine/Parameters.lean. -/

namespace Sys2Proof

/-- `NEWLINE_MODE`: what a newline does in the buffered path (43_buffered_print.md R74). -/
inductive NewlineMode where
  | nextRow
  | scroll
deriving DecidableEq, Repr

/-- `SCROLL_FILL`: the bottom row's content after a Line Scroll (43_buffered_print.md R76). -/
inductive ScrollFill where
  | zero
  | keep
deriving DecidableEq, Repr

/-- A configuration step that depends on `V`: one of its bytes is one of two constants, "the charge-pump value, the
contrast value and the pre-charge value"; "Every other item is the same for both values of `V`" (41_init.md R58 item 2). -/
structure ModeStep where
  /-- what the step sends before the value: the command byte -/
  before : List Byte
  /-- the value for `V = 0` -/
  internal : Byte
  /-- the value for `V = 1` -/
  external : Byte
  /-- what the step sends after the value -/
  after : List Byte
deriving DecidableEq, Repr

/-- The configuration steps of `INIT_SEQ` in the order of 41_init.md R58 item 1, each the command bytes it sends. A step
the source does not name (91_not_in_source.md N5) is carried in the list of the step it stands beside. -/
structure InitSteps where
  clockDivider : List Byte
  multiplexRatio : List Byte
  displayOffset : List Byte
  startLine : List Byte
  chargePump : ModeStep
  memoryMode : List Byte
  segmentRemap : List Byte
  scanDirection : List Byte
  comPins : List Byte
  contrast : ModeStep
  preCharge : ModeStep
  vcomDetect : List Byte
  displayOn : List Byte
deriving DecidableEq, Repr

/-- `HOST_MAP`: where the command port and the two views sit in the host's address space. -/
structure HostMap where
  commandPort : Nat
  statusView : Nat
  cursorView : Nat
deriving DecidableEq, Repr

/-- The parameters of R7 that are not derived from others, and the one panel property R58 item 5 names. `GLYPH_ROM` is a field of State (10_state.md R13). -/
structure Config where
  /-- `W` -/
  w : Nat
  /-- `PAGES` -/
  pages : Nat
  /-- `GLYPH_BASE` -/
  glyphBase : Nat
  /-- `GLYPH_COUNT` -/
  glyphCount : Nat
  /-- `GW` -/
  gw : Nat
  /-- `GLYPH_PAGES` -/
  glyphPages : Nat
  /-- `OVF_MARGIN` -/
  ovfMargin : Nat
  /-- `WRAP_COL` -/
  wrapCol : Nat
  /-- `WRAP_SKIP` -/
  wrapSkip : Nat
  /-- `COL_STRIDE` -/
  colStride : Nat
  /-- `CHAR_COLUMNS` -/
  charColumns : Nat
  /-- `NL_CODE` -/
  nlCode : Nat
  /-- `NEWLINE_MODE` -/
  newlineMode : NewlineMode
  /-- `SCROLL_FILL` -/
  scrollFill : ScrollFill
  /-- the steps of `INIT_SEQ` -/
  initSteps : InitSteps
  /-- The bytes that select the panel's horizontal addressing mode (41_init.md R58 item 5, D11). DEDUCED (log entry 6): a
  parameter, as the panel's other command bytes are. -/
  selectHorizontal : List Byte
  /-- `T_POWERON` -/
  tPowerOn : Nat
  /-- `T_DISPLAYON` -/
  tDisplayOn : Nat
  /-- `DEV_ADDR`. DESIGN CHOICE (log entry 16): a number without a width, because the spec gives none; so too the next two. -/
  devAddr : Nat
  /-- `REG_CMD` -/
  regCmd : Nat
  /-- `REG_DATA` -/
  regData : Nat
  /-- `PAGE_BASE` -/
  pageBase : Byte
  /-- `COL_LO_BASE` -/
  colLoBase : Byte
  /-- `COL_HI_BASE` -/
  colHiBase : Byte
  /-- `DISPLAY_OFF` -/
  displayOff : Byte
  /-- `DISPLAY_ON` -/
  displayOn : Byte
  /-- `SET_COL_WINDOW` -/
  setColWindow : Byte
  /-- `SET_PAGE_WINDOW` -/
  setPageWindow : Byte
  /-- `HOST_BYTE_ORDER` -/
  hostByteOrder : ByteOrder
  /-- `HOST_MAP` -/
  hostMap : HostMap
  /-- `PANEL_PTR_CMDS_IN_HORIZONTAL`, of the informative panel model only -/
  panelPtrCmdsInHorizontal : Bool
deriving DecidableEq, Repr

/-! ### Free values: nothing in Lean can evaluate these -/

/-- The acknowledgement of the `n`-th bus write that no scripted answer covers (20_memory.md R32). -/
opaque Config.freeAck : Nat → Bool

/-- Whether the event at index `n` of the output log, a write with acknowledgement 0, reached the panel (R32). DESIGN
CHOICE (log entry 12): hardware reset empties the log, so the indexes and these values start again. -/
opaque Config.freeLands : Nat → Bool

/-- Byte `n` of the glyph ROM after its space glyph, at reset (10_state.md R22: `GLYPH_ROM` is OPEN). -/
opaque Config.freeGlyphByte : Nat → Byte

/-- `T_POWERON` at reset (OPEN, 41_init.md R60). -/
opaque Config.freePowerOnDelay : Nat

/-- `T_DISPLAYON` at reset (OPEN, 41_init.md R60). -/
opaque Config.freeDisplayOnDelay : Nat

/-- `HOST_BYTE_ORDER` at reset (OPEN, 20_memory.md R33): whether the low byte comes first. -/
opaque Config.freeLowByteFirst : Bool

/-- `HOST_MAP` at reset (OPEN, 20_memory.md R38): the address of the port or view of that number. -/
opaque Config.freeHostAddress : Nat → Nat

/-- `PANEL_PTR_CMDS_IN_HORIZONTAL` at reset (OPEN, 60_exceptions.md R96). -/
opaque Config.freePanelPtrCmds : Bool

end Sys2Proof
end

