-- ==== Sys2Proof/Machine/Parameters.lean ====
section
/-! DEFINITION. The derived parameters of 00_scope.md R7, the constraints of R8 and 41_init.md R58, and the values the
spec gives the parameters (R7, R9, 41_init.md R59). -/

namespace Sys2Proof

/-- `LEN = W × PAGES`. -/
def Config.len (c : Config) : Nat := c.w * c.pages

/-- `ROWB = W × GLYPH_PAGES`. -/
def Config.rowb (c : Config) : Nat := c.w * c.glyphPages

/-- `CHAR_ROWS = PAGES`. -/
def Config.charRows (c : Config) : Nat := c.pages

/-- The value a mode-dependent step sends in mode `v` (R58 item 2). -/
def ModeStep.value (m : ModeStep) (v : VSource) : Byte :=
  match v with
  | .internal => m.internal
  | .external => m.external

/-- The bytes a mode-dependent step sends in mode `v` (R58 item 2). -/
def ModeStep.bytes (m : ModeStep) (v : VSource) : List Byte := m.before ++ m.value v :: m.after

/-- The command bytes of `INIT_SEQ(V)` in R58's order. -/
def InitSteps.bytes (t : InitSteps) (v : VSource) : List Byte :=
  t.clockDivider ++ t.multiplexRatio ++ t.displayOffset ++ t.startLine ++ t.chargePump.bytes v ++ t.memoryMode ++
    t.segmentRemap ++ t.scanDirection ++ t.comPins ++ t.contrast.bytes v ++ t.preCharge.bytes v ++ t.vcomDetect ++
    t.displayOn

/-- R58: each step is one or more command bytes (item 1), exactly three depend on `V` (item 2), and the addressing-mode
step selects horizontal mode (item 5); 30_encoding.md R53: the display-on step sends `DISPLAY_ON`. The order of the steps,
the one byte in which a mode-dependent step differs, and the two delays (item 3) hold by the form of `INIT_SEQ`. -/
def InitSteps.valid (t : InitSteps) (selectHorizontal : List Byte) (displayOn : Byte) : Bool :=
  [t.clockDivider, t.multiplexRatio, t.displayOffset, t.startLine, t.memoryMode, t.segmentRemap, t.scanDirection,
    t.comPins, t.vcomDetect, t.displayOn].all (fun bs => !bs.isEmpty) &&
  [t.chargePump, t.contrast, t.preCharge].all (fun m => m.internal != m.external) &&
  t.memoryMode == selectHorizontal &&
  t.displayOn.contains displayOn

/-- The constraints of R8. -/
def Config.constraints (c : Config) : Bool :=
  decide (1 ≤ c.w ∧ 1 ≤ c.pages ∧ 1 ≤ c.gw ∧ 95 ≤ c.glyphCount ∧ c.glyphBase + c.glyphCount ≤ 256 ∧
    c.nlCode < c.glyphBase ∧ c.colStride * (c.charColumns - 1) ≤ c.w - 1 ∧ c.rowb ≤ c.len)

/-- DEDUCED: what R8 does not list and the widths of the spec force. `CUR` is 11 bits and holds `LEN` (R13, R15); the
bytes `W − 1`, `PAGES − 1` and `PAGE_BASE + row` are bytes (R19, R62, R80); `div ROWB` has a divisor (R74). -/
def Config.fits (c : Config) : Bool :=
  decide (c.len ≤ 2047 ∧ c.w ≤ 256 ∧ c.pages ≤ 256 ∧ c.pageBase.toNat + c.pages ≤ 256 ∧ 1 ≤ c.glyphPages)

/-- A configuration inside this spec: "A configuration that breaks one is outside this spec and a model refuses it" (R8). -/
def Config.valid (c : Config) : Bool := c.constraints && c.fits && c.initSteps.valid c.selectHorizontal c.displayOn

/-- 10_state.md R22: `GLYPH_COUNT × GW` bytes, of which glyph 0 is zero. -/
def Config.romOk (c : Config) (rom : List Byte) : Bool :=
  decide (rom.length = c.glyphCount * c.gw) && (rom.take c.gw).all (fun b => b == 0#8)

/-- The default configuration steps, 41_init.md R59 (general knowledge by the spec's own mark). -/
def defaultInitSteps : InitSteps where
  clockDivider := [0xD5#8, 0x80#8]
  multiplexRatio := [0xA8#8, 0x3F#8]
  displayOffset := [0xD3#8, 0x00#8]
  startLine := [0x40#8]
  chargePump := ⟨[0x8D#8], 0x14#8, 0x10#8, []⟩
  memoryMode := [0x20#8, 0x00#8]
  segmentRemap := [0xA1#8]
  scanDirection := [0xC8#8]
  comPins := [0xDA#8, 0x12#8]
  contrast := ⟨[0x81#8], 0xCF#8, 0x9F#8, []⟩
  preCharge := ⟨[0xD9#8], 0xF1#8, 0x22#8, []⟩
  vcomDetect := [0xDB#8, 0x40#8]
  displayOn := [0xAF#8]

/-- The configuration at `State.reset`: the values of R7, `GW = 6` as in the test configuration TC (R9), the defaults of
30_encoding.md R53 and 41_init.md R59, and a free value for each parameter that has neither value nor default. -/
def Config.atReset : Config where
  w := 128
  pages := 8
  glyphBase := 32
  glyphCount := 95
  gw := 6
  glyphPages := 1
  ovfMargin := 2
  wrapCol := 126
  wrapSkip := 2
  colStride := 8
  charColumns := 16
  nlCode := 0x0A
  newlineMode := .nextRow
  scrollFill := .zero
  initSteps := defaultInitSteps
  selectHorizontal := [0x20#8, 0x00#8]
  tPowerOn := Config.freePowerOnDelay
  tDisplayOn := Config.freeDisplayOnDelay
  devAddr := 0x3C
  regCmd := 0x00
  regData := 0x40
  pageBase := 0xB0#8
  colLoBase := 0x00#8
  colHiBase := 0x10#8
  displayOff := 0xAE#8
  displayOn := 0xAF#8
  setColWindow := 0x21#8
  setPageWindow := 0x22#8
  hostByteOrder := if Config.freeLowByteFirst then .lowFirst else .highFirst
  hostMap := ⟨Config.freeHostAddress 0, Config.freeHostAddress 1, Config.freeHostAddress 2⟩
  panelPtrCmdsInHorizontal := Config.freePanelPtrCmds

/-- The glyph ROM at `State.reset`: the space glyph is zero (R22, D10) and every other byte is free. -/
def romAtReset : List Byte :=
  List.replicate 6 0#8 ++ (List.range (94 * 6)).map Config.freeGlyphByte

end Sys2Proof
end

