-- ==== Sys2Proof/Machine/State.lean ====
section
/-! DEFINITION. The TFC's state (10_state.md R13), the outcome types, and the state after reset (R23). -/

namespace Sys2Proof.Machine

/-- The framebuffer's bytes: the listed addresses hold a value, an unlisted address holds none (R14, R23). -/
abbrev Memory := List Host.Cell

/-- What a rule emits (00_scope.md R10): a command byte, a data byte or a busy-wait. -/
inductive Action where
  | cmd (b : Byte)
  | data (b : Byte)
  | wait (t : Nat)
deriving DecidableEq, Repr

/-- An event of the output log (R19): what was emitted and, for a bus write, the acknowledgement that came back. -/
inductive Event where
  | cmd (b : Byte) (ack : Bool)
  | data (b : Byte) (ack : Bool)
  | wait (t : Nat)
deriving DecidableEq, Repr

/-- The four faults of 60_exceptions.md R85. -/
inductive FaultKind where
  | illegal
  | notInit
  | cursorRange
  | fbOob
deriving DecidableEq, Repr

/-- A fault with the information R85 records with it. -/
inductive FaultInfo where
  /-- ILLEGAL: the word. -/
  | illegal (w : Word)
  /-- NOT_INIT of PRCHR: `CH`. -/
  | notInitPrchr (ch : Nat)
  /-- NOT_INIT of FLUSH: none. -/
  | notInitFlush
  /-- CURSOR_RANGE: `(ROW, COL)`. -/
  | cursorRange (row col : Nat)
  /-- FB_OOB: the glyph's first index. -/
  | fbOob (p : Nat)
deriving DecidableEq, Repr

/-- The result of a command as the host gets it (30_encoding.md R46); `fault` carries what a model reports (R85). -/
inductive Reply where
  | ok
  | fail
  | fault (info : FaultInfo)
deriving DecidableEq, Repr

/-- What the world outside does to the TFC, one entry a step. -/
inductive HostEvent where
  /-- The host presents a command word while the TFC is idle (R45). -/
  | command (w : Word)
  /-- A command word presented while another command runs (70_reset_and_hazards.md R101). -/
  | overlap (w : Word)
  /-- Hardware reset (70_reset_and_hazards.md R97). -/
  | reset
deriving DecidableEq, Repr

/-- Stops of the model. A fault of the TFC itself (R85) is NOT one: it is a next state. No state that meets
`State.Inv` reaches any of these. -/
inductive Fault where
  /-- Raised by the framebuffer read operation (FLUSH, Line Scroll) on a byte that holds no value: "not defined" (R27).
  Safe: the machine stops instead of a value being chosen. -/
  | fbNoValue
  /-- Raised by the framebuffer operations on an access past `LEN`: they "are defined only for `0 ≤ i < LEN`" (R27).
  Safe. -/
  | fbRange (a n : Nat)
  /-- Raised by the glyph ROM read operation for a glyph the ROM does not hold (R30). Safe. -/
  | romRange (k : Nat)
deriving DecidableEq, Repr

/-- Refusals of the model. -/
inductive Refusal where
  /-- Raised by an arm of `exec` for an instruction without a meaning. Safe. No arm raises it. -/
  | notModelled (mnemonic : String)
  /-- Raised by `step` in a state whose configuration or glyph ROM breaks a constraint (00_scope.md R8, 10_state.md R22):
  "a model refuses it". Safe. -/
  | configuration
  /-- Raised by `step` on a command presented while another runs: "has no meaning and is refused" (R101). Safe. -/
  | overlappingCommand
deriving DecidableEq, Repr

/-- The TFC's state. The first eight fields after `cfg` are R13's; `cfg` is R7's configuration; the last four belong to
the model: what the outside world will do, and what the host was answered last. -/
structure State where
  /-- The parameters (R7), fixed for the machine. -/
  cfg : Config
  /-- `GLYPH_ROM`, byte `i` of glyph `k` at `k × GW + i` (R22, R30). -/
  rom : List Byte
  /-- `FB` (R14). -/
  fb : Memory
  /-- `CUR` (R15). -/
  cur : BitVec 11
  /-- `VSRC` (R16). -/
  vsrc : VSource
  /-- `INITED` (R17). -/
  inited : Bool
  /-- `STATUS.FAIL` (R18). -/
  fail : Bool
  /-- `FAULT[3:0]` (R21). -/
  faults : BitVec 4
  /-- The output log since reset, oldest event first (R19). -/
  log : List Event
  /-- MODEL: what the world outside will do, oldest first (R45, R101). -/
  host : List HostEvent
  /-- MODEL: the answers the bus transport will give to the next bus writes; past its end they are free (R32). -/
  acks : List Bool
  /-- MODEL: how many bus writes have been answered, the argument of the free answers (R32). -/
  draws : Nat
  /-- MODEL: the result of the last command presented, none when there was none since reset (R45, R46). -/
  reply : Option Reply
deriving DecidableEq, Repr

/-- The state after hardware reset of a TFC with configuration `c` and glyph ROM `rom` (R23, R97). -/
def State.resetWith (c : Config) (rom : List Byte) : State where
  cfg := c
  rom := rom
  fb := []
  cur := 0#11
  vsrc := .internal
  inited := false
  fail := false
  faults := 0#4
  log := []
  host := []
  acks := []
  draws := 0
  reply := none

/-- The state after hardware reset. -/
def State.reset : State := State.resetWith Config.atReset romAtReset

end Sys2Proof.Machine
end

