-- ==== Sys2Proof/Machine/Ops.lean ====
section
/-! DEFINITION. The shared operations: the framebuffer (20_memory.md R27), the glyph ROM (R30), the bus (R31, R32), ending
a command (30_encoding.md R46), raising a fault (60_exceptions.md R86) and hardware reset (70_reset_and_hazards.md R97). -/

namespace Sys2Proof.Machine

/-! ### Framebuffer memory -/

/-- The byte at an address, none where it holds no value. -/
def Memory.read : Memory → Nat → Option Byte
  | [], _ => none
  | (k, v) :: m, a => if k = a then some v else Memory.read m a

/-- The `n` bytes from address `a` in increasing order, none where one of them holds no value. -/
def Memory.readBlock (m : Memory) : Nat → Nat → Option (List Byte)
  | _, 0 => some []
  | a, n + 1 =>
    match Memory.read m a, Memory.readBlock m (a + 1) n with
    | some b, some bs => some (b :: bs)
    | _, _ => none

/-- Bytes as cells at consecutive addresses from `a`. -/
def Memory.cells : Nat → List Byte → Memory
  | _, [] => []
  | a, b :: bs => (a, b) :: Memory.cells (a + 1) bs

/-- Writing bytes at consecutive addresses from `a`; a one-byte write is the case of one byte (R27). -/
def Memory.writeBlock (m : Memory) (a : Nat) (bs : List Byte) : Memory :=
  m.filter (fun c => decide (c.1 < a)) ++ Memory.cells a bs ++ m.filter (fun c => decide (a + bs.length ≤ c.1))

/-- The addresses rise strictly, from `lo` on. -/
def Memory.risingFrom : Nat → Memory → Bool
  | _, [] => true
  | lo, (k, _) :: m => decide (lo ≤ k) && Memory.risingFrom (k + 1) m

/-- The canonical form: addresses strictly rising. An unlisted address holds no value, so no entry can repeat what an
unlisted address reads as. -/
def Memory.wf (m : Memory) : Bool := Memory.risingFrom 0 m

/-- `MemRead` of the bytes `a` to `a + n − 1` (R27): it stops outside `0 .. LEN − 1` and on a byte without a value. -/
def State.readFb (s : State) (a n : Nat) : Except Fault (List Byte) :=
  if a + n ≤ s.cfg.len then
    match s.fb.readBlock a n with
    | some bs => .ok bs
    | none => .error .fbNoValue
  else .error (.fbRange a n)

/-- The framebuffer replaced. -/
def State.setFb (s : State) (m : Memory) : State := { s with fb := m }

/-- `MemWrite` of bytes at consecutive addresses from `a` (R27): it stops outside `0 .. LEN − 1`. -/
def State.writeFb (s : State) (a : Nat) (bs : List Byte) : Except Fault State :=
  if a + bs.length ≤ s.cfg.len then .ok (s.setFb (s.fb.writeBlock a bs)) else .error (.fbRange a bs.length)

/-- `CUR <- n` (R15). -/
def State.setCur (s : State) (n : Nat) : State := { s with cur := BitVec.ofNat 11 n }

/-- `VSRC <- v` (R16). -/
def State.setVsrc (s : State) (v : VSource) : State := { s with vsrc := v }

/-- 41_init.md R54, R56: every framebuffer byte 0, `CUR <- 0`, `INITED <- 1`. -/
def State.openSession (s : State) : State :=
  { s with fb := s.fb.writeBlock 0 (List.replicate s.cfg.len 0#8), cur := 0#11, inited := true }

/-! ### Glyph ROM -/

/-- The bytes `ROM(k, 0) .. ROM(k, GW − 1)` of glyph `k` (R30): it stops for a glyph the ROM does not hold. -/
def State.glyph (s : State) (k : Nat) : Except Fault (List Byte) :=
  if ((s.rom.drop (k * s.cfg.gw)).take s.cfg.gw).length = s.cfg.gw
  then .ok ((s.rom.drop (k * s.cfg.gw)).take s.cfg.gw)
  else .error (.romRange k)

/-! ### Bus writes -/

/-- The answer to the `n`-th bus write from now (R32): the scripted one, or a free one. -/
def State.ackAt (s : State) (n : Nat) : Bool := (s.acks[n]?).getD (Config.freeAck (s.draws + n))

/-- The events that emitting `as` in order adds, the first bus write among them being the `n`-th from now (R19, R32). -/
def State.answered (s : State) : Nat → List Action → List Event
  | _, [] => []
  | n, .cmd b :: as => .cmd b (s.ackAt n) :: State.answered s (n + 1) as
  | n, .data b :: as => .data b (s.ackAt n) :: State.answered s (n + 1) as
  | n, .wait t :: as => .wait t :: State.answered s n as

/-- How many of the actions are bus writes. A wait yields no acknowledgement (00_scope.md R10). -/
def busWrites : List Action → Nat
  | [] => 0
  | .cmd _ :: as => busWrites as + 1
  | .data _ :: as => busWrites as + 1
  | .wait _ :: as => busWrites as

/-- Emit the actions in order, each bus write answered before the next action starts (R32, R40, R41). -/
def State.emitAll (s : State) (as : List Action) : State :=
  { s with log := s.log ++ s.answered 0 as, acks := s.acks.drop (busWrites as), draws := s.draws + busWrites as }

/-- Whether the transport answered this event with failure. -/
def Event.nacked : Event → Bool
  | .cmd _ ack => !ack
  | .data _ ack => !ack
  | .wait _ => false

/-- What an event emitted, without the answer. -/
def Event.action : Event → Action
  | .cmd b _ => .cmd b
  | .data b _ => .data b
  | .wait t => .wait t

/-- The answer a bus write got; a wait yields none (00_scope.md R10). -/
def Event.ack : Event → Option Bool
  | .cmd _ ack => some ack
  | .data _ ack => some ack
  | .wait _ => none

/-- `fail` after emitting `as` from `fail = 0`: the OR of the negated acknowledgements (41_init.md R55). -/
def State.anyNack (s : State) (as : List Action) : Bool := (s.answered 0 as).any Event.nacked

/-- The transaction an event makes on the bus: device address, register and byte (R31). -/
def Event.busWrite (c : Config) : Event → Option (Nat × Nat × Byte)
  | .cmd b _ => some (c.devAddr, c.regCmd, b)
  | .data b _ => some (c.devAddr, c.regData, b)
  | .wait _ => none

/-! ### Ending a command -/

/-- `STATUS.FAIL <- fail` and the result `FAIL` or `OK` (R46). -/
def State.finish (s : State) (fail : Bool) : State :=
  { s with fail := fail, reply := some (if fail then .fail else .ok) }

/-- A command that ran to completion (R46). -/
def complete (fail : Bool) (s : State) : Host.Outcome State Fault Refusal := .next (s.finish fail)

/-- The bit of `FAULT` of a fault kind (10_state.md R21). -/
def FaultKind.flag : FaultKind → BitVec 4
  | .illegal => 0b0001#4
  | .notInit => 0b0010#4
  | .cursorRange => 0b0100#4
  | .fbOob => 0b1000#4

/-- The kind of a fault (R85). -/
def FaultInfo.kind : FaultInfo → FaultKind
  | .illegal _ => .illegal
  | .notInitPrchr _ => .notInit
  | .notInitFlush => .notInit
  | .cursorRange _ _ => .cursorRange
  | .fbOob _ => .fbOob

/-- `FAULT.kind <- 1` and the result `FAULT`, nothing else (R86). -/
def State.withFault (s : State) (info : FaultInfo) : State :=
  { s with faults := s.faults ||| info.kind.flag, reply := some (.fault info) }

/-- `raise Fault(kind, info)` from the state in which the command was presented (R86): the TFC goes on (R87). -/
def raiseFault (info : FaultInfo) (s : State) : Host.Outcome State Fault Refusal := .next (s.withFault info)

/-- Go on with what an operation gives, or stop with its reason. -/
def orStop {α : Type} (r : Except Fault α) (k : α → Host.Outcome State Fault Refusal) :
    Host.Outcome State Fault Refusal :=
  match r with
  | .ok a => k a
  | .error e => .fault e

/-! ### Reset -/

/-- Hardware reset (R97): every piece of TFC state at R23's value; the outside world's plans go on. -/
def State.hardReset (s : State) : State :=
  { State.resetWith s.cfg s.rom with host := s.host, acks := s.acks, draws := s.draws }

/-- Whether the configuration and the glyph ROM are inside the spec (00_scope.md R8, 10_state.md R22). -/
def State.configured (s : State) : Bool := s.cfg.valid && s.cfg.romOk s.rom

end Sys2Proof.Machine
end

