-- ==== Sys2Proof/Machine/Operands.lean ====
section
/-! DEFINITION. What the operands select: character codes and glyph numbers (42_direct_path.md R61), the addressing bytes
of a character cell (R62), the configuration sequence of a mode (41_init.md R58). -/

namespace Sys2Proof.Machine

/-- R61: a code has a glyph when `GLYPH_BASE ≤ ch < GLYPH_BASE + GLYPH_COUNT`. -/
def hasGlyph (c : Config) (ch : Nat) : Bool := decide (c.glyphBase ≤ ch ∧ ch < c.glyphBase + c.glyphCount)

/-- R61: the number of a code's glyph. -/
def glyphNumber (c : Config) (ch : Nat) : Nat := ch - c.glyphBase

/-- R62: `PAGE_BASE + r`. -/
def pageByte (c : Config) (r : Nat) : Byte := c.pageBase + BitVec.ofNat 8 r

/-- R62: the pixel column `x` of a character column. -/
def pixelColumn (c : Config) (col : Nat) : Nat := c.colStride * col

/-- R62: `COL_LO_BASE OR x[3:0]`. -/
def colLoByte (c : Config) (x : Nat) : Byte := c.colLoBase ||| BitVec.ofNat 8 (x % 16)

/-- R62: `COL_HI_BASE OR x[7:4]`. -/
def colHiByte (c : Config) (x : Nat) : Byte := c.colHiBase ||| BitVec.ofNat 8 (x / 16 % 16)

/-- R62: `SETCUR_EMIT(r, c)`. -/
def setcurActions (c : Config) (r col : Nat) : List Action :=
  [.cmd (pageByte c r), .cmd (colLoByte c (pixelColumn c col)), .cmd (colHiByte c (pixelColumn c col))]

/-- `INIT_SEQ(V)`: the delay after power-on, the configuration bytes, the delay after display-on (R58). -/
def initSeq (c : Config) (v : VSource) : List Action :=
  .wait c.tPowerOn :: (c.initSteps.bytes v).map .cmd ++ [.wait c.tDisplayOn]

end Sys2Proof.Machine
end

