-- ==== Sys2Proof/Machine/BufferedPrint.lean ====
section
/-! DEFINITION. The buffered print engine: PRCHR with NEWLINE and LINE_SCROLL (43_buffered_print.md). -/

namespace Sys2Proof.Machine

/-- R75, R76: the buffer's bytes after a Line Scroll of a buffer that held `old`. -/
def scrolledBytes (c : Config) (old : List Byte) : List Byte :=
  old.drop c.rowb ++
    match c.scrollFill with
    | .zero => List.replicate c.rowb 0#8
    | .keep => old.drop (c.len - c.rowb)

/-- `LINE_SCROLL()` (R75): the whole buffer is read before any write. -/
def lineScroll (s : State) : Except Fault State :=
  match s.readFb 0 s.cfg.len with
  | .error e => .error e
  | .ok old =>
    match s.writeFb 0 (scrolledBytes s.cfg old) with
    | .error e => .error e
    | .ok s' => .ok (s'.setCur (s.cfg.len - s.cfg.rowb))

/-- `NEWLINE()` (R74). -/
def newline (s : State) : Except Fault State :=
  match s.cfg.newlineMode with
  | .nextRow =>
    let r := s.cur.toNat / s.cfg.rowb + 1
    if s.cfg.len / s.cfg.rowb ≤ r then lineScroll s else .ok (s.setCur (r * s.cfg.rowb))
  | .scroll => lineScroll s

/-- Step 3 of PRCHR (R68): the overflow check, on `CUR` before the pre-increment. -/
def scrollIfFull (s : State) : Except Fault State :=
  if s.cfg.len - s.cfg.ovfMargin ≤ s.cur.toNat then lineScroll s else .ok s

/-- Steps 4 and 5 of PRCHR (R68): the glyph's first index after the pre-increment and the column-wrap check. -/
def glyphStart (c : Config) (cur : Nat) : Nat :=
  if c.wrapCol ≤ (cur + 1) % c.w then cur + 1 + c.wrapSkip else cur + 1

/-- Steps 3 to 6 of PRCHR for a code with a glyph (R68). A fault leaves the state in which the command was presented, so
a scroll of step 3 is not kept (R72). -/
def printGlyph (ch : Nat) (s : State) : Host.Outcome State Fault Refusal :=
  orStop (scrollIfFull s) fun s1 =>
    let p := glyphStart s.cfg s1.cur.toNat
    if s.cfg.len < p + s.cfg.gw then raiseFault (.fbOob p) s
    else
      orStop (s.glyph (glyphNumber s.cfg ch)) fun g =>
        orStop (s1.writeFb p g) fun s2 => complete false (s2.setCur (p + s.cfg.gw))

/-- PRCHR (R68). -/
def execPrchr (ch : Nat) (s : State) : Host.Outcome State Fault Refusal :=
  if s.inited = false then raiseFault (.notInitPrchr ch) s
  else if ch = s.cfg.nlCode then orStop (newline s) (complete false)
  else if hasGlyph s.cfg ch then printGlyph ch s
  else complete false s

end Sys2Proof.Machine
end

