-- ==== Sys2Proof/Machine/DirectPath.lean ====
section
/-! DEFINITION. The direct path: SETCUR, CLEAR and WRCHR (42_direct_path.md). -/

namespace Sys2Proof.Machine

/-- SETCUR (R63). -/
def execSetcur (row col : Nat) (s : State) : Host.Outcome State Fault Refusal :=
  if s.cfg.charRows ≤ row ∨ s.cfg.charColumns ≤ col then raiseFault (.cursorRange row col) s
  else complete (s.anyNack (setcurActions s.cfg row col)) (s.emitAll (setcurActions s.cfg row col))

/-- One character cell of CLEAR: move there, then send the space glyph (R64). -/
def blankCell (c : Config) (space : List Byte) (r col : Nat) : List Action :=
  setcurActions c r col ++ space.map .data

/-- `CLEAR_BODY` (R64): rows outer, columns inner. -/
def clearActions (c : Config) (space : List Byte) : List Action :=
  .cmd c.displayOff ::
    ((List.range c.charRows).flatMap fun r => (List.range c.charColumns).flatMap fun col => blankCell c space r col) ++
    .cmd c.displayOn :: setcurActions c 0 0

/-- CLEAR (R64). Glyph 0 is the space. -/
def execClear (s : State) : Host.Outcome State Fault Refusal :=
  orStop (s.glyph 0) fun space =>
    complete (s.anyNack (clearActions s.cfg space)) (s.emitAll (clearActions s.cfg space))

/-- WRCHR (R67): a code without a glyph is dropped. -/
def execWrchr (ch : Nat) (s : State) : Host.Outcome State Fault Refusal :=
  if hasGlyph s.cfg ch then
    orStop (s.glyph (glyphNumber s.cfg ch)) fun g =>
      complete (s.anyNack (g.map .data)) (s.emitAll (g.map .data))
  else complete false s

end Sys2Proof.Machine
end

