-- ==== Sys2Proof/Machine/Flush.lean ====
section
/-! DEFINITION. Flush: FLUSH (44_flush.md). -/

namespace Sys2Proof.Machine

/-- R80: the full column window, then the full page window. -/
def windowActions (c : Config) : List Action :=
  [.cmd c.setColWindow, .cmd 0#8, .cmd (BitVec.ofNat 8 (c.w - 1)),
   .cmd c.setPageWindow, .cmd 0#8, .cmd (BitVec.ofNat 8 (c.pages - 1))]

/-- FLUSH (R80, R81). -/
def execFlush (s : State) : Host.Outcome State Fault Refusal :=
  if s.inited = false then raiseFault .notInitFlush s
  else
    orStop (s.readFb 0 s.cfg.len) fun bytes =>
      let actions := windowActions s.cfg ++ bytes.map .data
      complete (s.anyNack actions) (s.emitAll actions)

end Sys2Proof.Machine
end

