-- ==== Sys2Proof/Machine/Init.lean ====
section
/-! DEFINITION. Initialization: INIT (41_init.md). -/

namespace Sys2Proof.Machine

/-- INIT (R54): the mode, the configuration sequence, the new session, then CLEAR's own writes, whose failures count in
the same aggregate (R55). -/
def execInit (v : VSource) (s : State) : Host.Outcome State Fault Refusal :=
  orStop (s.glyph 0) fun space =>
    let s1 := s.setVsrc v
    let s2 := (s1.emitAll (initSeq s.cfg v)).openSession
    let body := clearActions s.cfg space
    complete (s1.anyNack (initSeq s.cfg v) || s2.anyNack body) (s2.emitAll body)

end Sys2Proof.Machine
end

