-- ==== Sys2Proof/Machine/Dispatch.lean ====
section
/-! DEFINITION. One arm per command. -/

namespace Sys2Proof.Machine

/-- What a command does. -/
def exec (i : Instr) (s : State) : Host.Outcome State Fault Refusal :=
  match i with
  | .init v => Sys2Proof.Machine.execInit v s
  | .clear => Sys2Proof.Machine.execClear s
  | .setcur row col => Sys2Proof.Machine.execSetcur row col s
  | .wrchr ch => Sys2Proof.Machine.execWrchr ch s
  | .prchr ch => Sys2Proof.Machine.execPrchr ch s
  | .flush => Sys2Proof.Machine.execFlush s

end Sys2Proof.Machine
end

