-- ==== Sys2Proof/WellFormed.lean ====
section
/-! DEFINITION. Which commands have an encoding: each operand fits its field (30_encoding.md R48, R51). -/

namespace Sys2Proof

/-- R51: "An operand outside its field width (`row > 15`, `col > 255`, `ch > 255`) is refused by the assembler and has
no encoding." -/
def Instr.wellFormed : Instr → Bool
  | .init _ => true
  | .clear => true
  | .setcur row col => decide (row ≤ 15) && decide (col ≤ 255)
  | .wrchr ch => decide (ch ≤ 255)
  | .prchr ch => decide (ch ≤ 255)
  | .flush => true

end Sys2Proof
end

