-- ==== Sys2Proof/Decode.lean ====
section
/-! DEFINITION. Decoding a command word and encoding a command (30_encoding.md R47 to R49), and the two-byte form of a
word on a byte-wide host port (20_memory.md R33). -/

namespace Sys2Proof

/-- `w[hi:lo]` as a natural number (00_scope.md R10). -/
def bits (w : Word) (hi lo : Nat) : Nat := w.toNat / 2 ^ lo % 2 ^ (hi + 1 - lo)

/-- Why a word is illegal (R49). -/
inductive IllegalReason where
  /-- Opcode 0x0 or 0x7 to 0xF. -/
  | reservedOpcode
  /-- A defined opcode with a 1 in a must-be-zero bit. -/
  | mustBeZero
deriving DecidableEq, Repr

/-- What a command word decodes as: a command, or a rejection by name. -/
inductive Decoded where
  | ok (i : Instr)
  | illegal (r : IllegalReason)
deriving DecidableEq, Repr

/-- R48: `V = w[0]`; 0 is internal, 1 is external. -/
def VSource.ofBit (b : Nat) : VSource := if b = 0 then .internal else .external

/-- R48: the bit that stands for a voltage source. -/
def VSource.toBit : VSource → Nat
  | .internal => 0
  | .external => 1

/-- A command whose must-be-zero field holds `field` (R49). -/
def zeroField (field : Nat) (i : Instr) : Decoded :=
  if field = 0 then .ok i else .illegal .mustBeZero

/-- R47: the opcode is `w[15:12]`; the operand and must-be-zero fields are the table's. -/
def decode (w : Word) : Decoded :=
  match bits w 15 12 with
  | 1 => zeroField (bits w 11 1) (.init (.ofBit (bits w 0 0)))
  | 2 => zeroField (bits w 11 0) .clear
  | 3 => .ok (.setcur (bits w 11 8) (bits w 7 0))
  | 4 => zeroField (bits w 11 8) (.wrchr (bits w 7 0))
  | 5 => zeroField (bits w 11 8) (.prchr (bits w 7 0))
  | 6 => zeroField (bits w 11 0) .flush
  | _ => .illegal .reservedOpcode

/-- The command word of a well-formed command, from R47's bit patterns. -/
def encode : Instr → Word
  | .init v => BitVec.ofNat 16 (0x1000 + v.toBit)
  | .clear => 0x2000#16
  | .setcur row col => BitVec.ofNat 16 (0x3000 + row * 256 + col)
  | .wrchr ch => BitVec.ofNat 16 (0x4000 + ch)
  | .prchr ch => BitVec.ofNat 16 (0x5000 + ch)
  | .flush => 0x6000#16

/-- R51: the word of a command, or none for an operand that has no encoding. -/
def encodeChecked (i : Instr) : Option Word := if i.wellFormed then some (encode i) else none

/-- A row of R47's match and mask table. -/
structure OpcodeRow where
  pattern : Word
  mask : Word
deriving DecidableEq, Repr

/-- The row of a command in R47's match and mask table. -/
def Instr.opcodeRow : Instr → OpcodeRow
  | .init _ => ⟨0x1000#16, 0xFFFE#16⟩
  | .clear => ⟨0x2000#16, 0xFFFF#16⟩
  | .setcur _ _ => ⟨0x3000#16, 0xF000#16⟩
  | .wrchr _ => ⟨0x4000#16, 0xFF00#16⟩
  | .prchr _ => ⟨0x5000#16, 0xFF00#16⟩
  | .flush => ⟨0x6000#16, 0xFFFF#16⟩

/-- R47's match and mask table, in its own order. -/
def opcodeTable : List OpcodeRow :=
  [⟨0x1000#16, 0xFFFE#16⟩, ⟨0x2000#16, 0xFFFF#16⟩, ⟨0x3000#16, 0xF000#16⟩,
   ⟨0x4000#16, 0xFF00#16⟩, ⟨0x5000#16, 0xFF00#16⟩, ⟨0x6000#16, 0xFFFF#16⟩]

/-- R47: "A word `w` is command `X` when `w AND mask(X) = match(X)`." -/
def OpcodeRow.accepts (r : OpcodeRow) (w : Word) : Bool := w &&& r.mask == r.pattern

/-! ### The word as two bytes (R33, `HOST_BYTE_ORDER`) -/

/-- The two bytes of a word in the order a byte-wide host port carries them. -/
def hostBytes (o : ByteOrder) (w : Word) : List Byte :=
  match o with
  | .lowFirst => [w.extractLsb' 0 8, w.extractLsb' 8 8]
  | .highFirst => [w.extractLsb' 8 8, w.extractLsb' 0 8]

/-- The word that the first two bytes carry, and the bytes after it. -/
def wordOfHostBytes (o : ByteOrder) : List Byte → Option (Word × List Byte)
  | a :: b :: rest =>
    match o with
    | .lowFirst => some (b ++ a, rest)
    | .highFirst => some (a ++ b, rest)
  | _ => none

/-- What a byte sequence decodes as: a command with the bytes after it, an illegal word, or too few bytes. -/
inductive DecodedBytes where
  | ok (i : Instr) (rest : List Byte)
  | illegal (w : Word) (r : IllegalReason)
  | tooShort
deriving DecidableEq, Repr

/-- Decoding bytes, total: every command is two bytes long (R47). -/
def decodeBytes (o : ByteOrder) (bs : List Byte) : DecodedBytes :=
  match wordOfHostBytes o bs with
  | none => .tooShort
  | some (w, rest) =>
    match decode w with
    | .ok i => .ok i rest
    | .illegal r => .illegal w r

/-! ### The opcode table's numbering of a word's bits -/

/-- The command word whose low `nbits` bits are `w`'s, every bit above them 0; none where it has more than 16 bits. -/
def tableWord (nbits w : Nat) : Option Word :=
  if w % 2 ^ nbits < 0x10000 then some (BitVec.ofNat 16 (w % 2 ^ nbits)) else none

/-- The command the decoder reads from a word numbered as spec/opcode_table.json numbers it. The word goes through its
two-byte form and back, which is the same in either byte order. -/
def decodeTableWord (nbits w : Nat) : Option Instr :=
  match tableWord nbits w with
  | none => none
  | some word =>
    match decodeBytes .lowFirst (hostBytes .lowFirst word) with
    | .ok i _ => some i
    | .illegal _ _ => none
    | .tooShort => none

end Sys2Proof
end

