-- ==== Sys2Proof/Machine/Flags.lean ====
section
/-! DEFINITION. The status a host sees: the STATUS and CURSOR words (10_state.md R24) and the result's encoding
(30_encoding.md R46). -/

namespace Sys2Proof.Machine

/-- `VSRC` as a bit (R16). -/
def vsrcBit (v : VSource) : BitVec 1 :=
  match v with
  | .internal => 0#1
  | .external => 1#1

/-- R24: bit 0 `STATUS.FAIL`, bit 1 `INITED`, bit 2 `VSRC`, bits 7:4 `FAULT[3:0]`, the others 0. -/
def State.statusWord (s : State) : Word :=
  0#8 ++ s.faults ++ 0#1 ++ vsrcBit s.vsrc ++ BitVec.ofBool s.inited ++ BitVec.ofBool s.fail

/-- R24: bits 10:0 `CUR`, the others 0. -/
def State.cursorWord (s : State) : Word := 0#5 ++ s.cur

/-- R46: `OK` is 0b00, `FAIL` 0b01, `FAULT` 0b10. -/
def Reply.code : Reply → BitVec 2
  | .ok => 0b00#2
  | .fail => 0b01#2
  | .fault _ => 0b10#2

/-- The two views at the addresses the integration gives them (`HOST_MAP`, 20_memory.md R38); no side effect (R24). DESIGN
CHOICE (log entry 10): `HOST_MAP` is open, so both views may be given one address; there the STATUS word is read and the
CURSOR word cannot be. -/
def State.hostRead (s : State) (addr : Nat) : Option Word :=
  if addr = s.cfg.hostMap.statusView then some s.statusWord
  else if addr = s.cfg.hostMap.cursorView then some s.cursorWord
  else none

/-- A view as a byte-wide host port carries it (`HOST_BYTE_ORDER`, 20_memory.md R33). -/
def State.hostReadBytes (s : State) (addr : Nat) : Option (List Byte) :=
  (s.hostRead addr).map (hostBytes s.cfg.hostByteOrder)

end Sys2Proof.Machine
end

