-- ==== Sys2Proof/Machine/HostPort.lean ====
section
/-! DEFINITION. The host interface (30_encoding.md R45, 70_reset_and_hazards.md R97, R98, R101): what a step does with the
next thing the outside world does. The TFC fetches nothing: the host presents each command word (00_scope.md R2). -/

namespace Sys2Proof.Machine

/-- The rest of the outside world's plans. -/
def State.setHost (s : State) (h : List HostEvent) : State := { s with host := h }

/-- A presented command word: ILLEGAL at decode (30_encoding.md R49, 60_exceptions.md R88), or the command's rule. -/
def runCommand (w : Word) (s : State) : Host.Outcome State Fault Refusal :=
  match decode w with
  | .ok i => exec i s
  | .illegal _ => raiseFault (.illegal w) s

/-- One event of the outside world. With none the TFC is idle and holds its state (60_exceptions.md R95). -/
def serve (s : State) : Host.Outcome State Fault Refusal :=
  match s.host with
  | [] => .next s
  | .command w :: rest => runCommand w (s.setHost rest)
  | .overlap _ :: _ => .refused .overlappingCommand
  | .reset :: rest => .next (s.setHost rest).hardReset

/-- A state whose parameters break a constraint is refused (00_scope.md R8). -/
def serveConfigured (s : State) : Host.Outcome State Fault Refusal :=
  if s.configured then serve s else .refused .configuration

/-- The host presents a word next. -/
def State.present (s : State) (w : Word) : State := s.setHost (.command w :: s.host)

/-- A byte-wide host port presents the word that two bytes carry (`HOST_BYTE_ORDER`, 20_memory.md R33); `HOST_MAP` says at
which address (R38). DESIGN CHOICE (log entry 10): bytes written elsewhere, or fewer than two, present nothing; of more than
two bytes the first two are the word and the others are dropped. -/
def State.presentBytes (s : State) (addr : Nat) (bs : List Byte) : State :=
  if addr = s.cfg.hostMap.commandPort then
    match wordOfHostBytes s.cfg.hostByteOrder bs with
    | some (w, _) => s.present w
    | none => s
  else s

end Sys2Proof.Machine
end

