-- ==== Sys2Proof/Machine/Step.lean ====
section
/-! DEFINITION. One step of the machine: one transaction of the host (30_encoding.md R45), or a reset. -/

namespace Sys2Proof.Machine

/-- One step. -/
def step (s : State) : Host.Outcome State Fault Refusal := serveConfigured s

/-- `s` with the word numbered as spec/opcode_table.json numbers it presented by the host as its next command. -/
def State.withFetchWord (s : State) (nbits w : Nat) : State :=
  match tableWord nbits w with
  | some word => s.present word
  | none => s

end Sys2Proof.Machine
end

