-- ==== Sys2Proof/Machine/Assembler.lean ====
section
/-! DEFINITION. The assembler syntax (30_encoding.md R51) and the pseudo-commands WRSTR and PRSTR (R52). -/

namespace Sys2Proof.Machine

/-- The words of a source line. -/
inductive Token where
  | name (cs : List Char)
  | number (n : Nat)
  /-- a quoted character's code -/
  | char (code : Nat)
  /-- a quoted string's codes -/
  | string (codes : List Nat)
  | comma
deriving DecidableEq, Repr

/-- A decimal digit's value. -/
def decimalDigit (c : Char) : Option Nat := if '0' ≤ c ∧ c ≤ '9' then some (c.toNat - 48) else none

/-- A hexadecimal digit's value. -/
def hexDigit (c : Char) : Option Nat :=
  if '0' ≤ c ∧ c ≤ '9' then some (c.toNat - 48)
  else if 'a' ≤ c ∧ c ≤ 'f' then some (c.toNat - 87)
  else if 'A' ≤ c ∧ c ≤ 'F' then some (c.toNat - 55)
  else none

/-- The number that the leading digits spell in a base, after `acc`, and what follows them. -/
def takeNumber (digit : Char → Option Nat) (base : Nat) : Nat → List Char → Nat × List Char
  | acc, [] => (acc, [])
  | acc, c :: cs =>
    match digit c with
    | some d => takeNumber digit base (acc * base + d) cs
    | none => (acc, c :: cs)

/-- Whether a character may stand in a mnemonic or a keyword: R51's are upper case. -/
def isNameChar (c : Char) : Bool := decide ('A' ≤ c ∧ c ≤ 'Z')

/-- The codes up to the closing double quote, and what follows it. -/
def takeString : List Char → Option (List Nat × List Char)
  | [] => none
  | '"' :: cs => some ([], cs)
  | c :: cs => (takeString cs).map fun r => (c.toNat :: r.1, r.2)

/-- The tokens of a line, a `;` starting a comment to its end (R51); none where it has no reading. DESIGN CHOICE (log entry
13): a `;` inside single or double quotes is the quoted character and starts no comment. `fuel` is at least the line's
length. -/
def tokens : Nat → List Char → Option (List Token)
  | 0, _ => some []
  | _ + 1, [] => some []
  | _ + 1, ';' :: _ => some []
  | fuel + 1, ' ' :: cs => tokens fuel cs
  | fuel + 1, ',' :: cs => (tokens fuel cs).map (Token.comma :: ·)
  | fuel + 1, '\'' :: '\\' :: 'n' :: '\'' :: cs => (tokens fuel cs).map (Token.char 0x0A :: ·)
  | fuel + 1, '\'' :: c :: '\'' :: cs => (tokens fuel cs).map (Token.char c.toNat :: ·)
  | fuel + 1, '"' :: cs =>
    match takeString cs with
    | some (codes, rest) => (tokens fuel rest).map (Token.string codes :: ·)
    | none => none
  | fuel + 1, '0' :: 'x' :: cs =>
    match cs.head?.bind hexDigit with
    | some _ => (tokens fuel (takeNumber hexDigit 16 0 cs).2).map (Token.number (takeNumber hexDigit 16 0 cs).1 :: ·)
    | none => none
  | fuel + 1, c :: cs =>
    if (decimalDigit c).isSome then
      (tokens fuel (takeNumber decimalDigit 10 0 (c :: cs)).2).map
        (Token.number (takeNumber decimalDigit 10 0 (c :: cs)).1 :: ·)
    else if isNameChar c then
      (tokens fuel (cs.dropWhile isNameChar)).map (Token.name (c :: cs.takeWhile isNameChar) :: ·)
    else none

/-- R52: `WRSTR "s"` is one WRCHR per byte of `s`, left to right. -/
def wrstr (codes : List Nat) : List Instr := codes.map .wrchr

/-- R52: `PRSTR "s"` is one PRCHR per byte of `s`, left to right. -/
def prstr (codes : List Nat) : List Instr := codes.map .prchr

/-- R52: the result of `WRSTR` from the results of its WRCHRs. -/
def wrstrReply (rs : List Reply) : Reply := if rs.contains .fail then .fail else .ok

/-- R51's syntax table and R52: the commands of a line's tokens. An empty line has none. -/
def parse : List Token → Option (List Instr)
  | [] => some []
  | [.name ['I', 'N', 'I', 'T'], .name ['I', 'N', 'T', 'E', 'R', 'N', 'A', 'L']] => some [.init .internal]
  | [.name ['I', 'N', 'I', 'T'], .name ['E', 'X', 'T', 'E', 'R', 'N', 'A', 'L']] => some [.init .external]
  | [.name ['C', 'L', 'E', 'A', 'R']] => some [.clear]
  | [.name ['S', 'E', 'T', 'C', 'U', 'R'], .number row, .comma, .number col] => some [.setcur row col]
  | [.name ['W', 'R', 'C', 'H', 'R'], .char ch] => some [.wrchr ch]
  | [.name ['W', 'R', 'C', 'H', 'R'], .number ch] => some [.wrchr ch]
  | [.name ['P', 'R', 'C', 'H', 'R'], .char ch] => some [.prchr ch]
  | [.name ['P', 'R', 'C', 'H', 'R'], .number ch] => some [.prchr ch]
  | [.name ['F', 'L', 'U', 'S', 'H']] => some [.flush]
  | [.name ['W', 'R', 'S', 'T', 'R'], .string codes] => some (wrstr codes)
  | [.name ['P', 'R', 'S', 'T', 'R'], .string codes] => some (prstr codes)
  | _ => none

/-- The command words of a line; none where it is refused: no reading, or an operand outside its field (R51). -/
def assembleLine (line : List Char) : Option (List Word) :=
  match (tokens line.length line).bind parse with
  | none => none
  | some is => is.mapM encodeChecked

end Sys2Proof.Machine
end

