-- ==== Sys2Proof/Machine/Panel.lean ====
section
/-! DEFINITION. The informative reference model of the panel (60_exceptions.md R96). The panel is a device outside the TFC:
no rule of the TFC depends on this file, State holds nothing of it, and a claim that uses it takes the panel as a named
assumption. It reads the TFC's output log. -/

namespace Sys2Proof.Machine

/-- The panel's addressing modes (R96). -/
inductive AddressingMode where
  | horizontal
  | page
deriving DecidableEq, Repr

/-- The panel's state (R96). `GDDRAM[page][col]` is the cell at `page × 128 + col`; `received` holds a command byte whose
argument bytes have not all arrived. -/
structure Panel where
  pages : Nat
  gddram : Memory
  mode : AddressingMode
  pagePtr : Nat
  colPtr : Nat
  colStart : Nat
  colEnd : Nat
  pageStart : Nat
  pageEnd : Nat
  displayOn : Bool
  received : List Byte
deriving DecidableEq, Repr

/-- `GDDRAM[page][col]`. -/
def Panel.pixelByte (p : Panel) (page col : Nat) : Option Byte := Memory.read p.gddram (page * 128 + col)

/-- Whether pixel row `k` of a page, counted from the top, is lit in a column: bit `k` of the column strip's byte, 1 lit
(20_memory.md R29). -/
def Panel.pixel (p : Panel) (page col k : Nat) : Option Bool := (p.pixelByte page col).map fun b => b.getLsbD k

/-- How many argument bytes follow a command byte: R96 for 0x20 to 0x22; for the other configuration commands of
41_init.md R59, the bytes its table lists with them (DEDUCED). DESIGN CHOICE (log entry 12): where a byte is both one of
these and a page command `0xB0 + n` (0xD3, 0xD5, 0xD9, 0xDA, 0xDB, with more than 35 pages), it is the command with an
argument; and a byte that neither R96 nor that table lists takes no argument. R96 says neither. -/
def panelArguments (b : Byte) : Nat :=
  if b = 0x21#8 ∨ b = 0x22#8 then 2
  else if [0x20#8, 0xD5#8, 0xA8#8, 0xD3#8, 0x8D#8, 0xDA#8, 0x81#8, 0xD9#8, 0xDB#8].contains b then 1
  else 0

/-- Whether the three pointer commands act: always in page mode, and by `PANEL_PTR_CMDS_IN_HORIZONTAL` in horizontal
mode (R96). -/
def Panel.pointersMove (c : Config) (p : Panel) : Bool :=
  match p.mode with
  | .page => true
  | .horizontal => c.panelPtrCmdsInHorizontal

/-- A one-byte command (R96): a pointer command, display off or on; any other changes nothing the model holds. DESIGN
CHOICE (log entry 12): where a byte is both a one-byte configuration command of 41_init.md R59 and a page command
`0xB0 + n` (0xC8, with more than 24 pages), it is the page command; R96 does not say. -/
def Panel.single (c : Config) (n : Nat) (p : Panel) : Panel :=
  if n ≤ 0x0F then (if p.pointersMove c then { p with colPtr := p.colPtr / 16 * 16 + n } else p)
  else if n ≤ 0x1F then (if p.pointersMove c then { p with colPtr := (n - 0x10) * 16 + p.colPtr % 16 } else p)
  else if 0xB0 ≤ n ∧ n < 0xB0 + p.pages then (if p.pointersMove c then { p with pagePtr := n - 0xB0 } else p)
  else if n = 0xAE then { p with displayOn := false }
  else if n = 0xAF then { p with displayOn := true }
  else p

/-- A command with one argument (R96): the addressing mode; any other changes nothing the model holds. -/
def Panel.withArgument (n m : Nat) (p : Panel) : Panel :=
  if n = 0x20 ∧ m = 0 then { p with mode := .horizontal }
  else if n = 0x20 ∧ m = 2 then { p with mode := .page }
  else p

/-- A command with two arguments (R96): a window, and the pointer to its start. -/
def Panel.window (n a b : Nat) (p : Panel) : Panel :=
  if n = 0x21 then { p with colStart := a, colEnd := b, colPtr := a }
  else { p with pageStart := a, pageEnd := b, pagePtr := a }

/-- A command byte arrives (R96). DESIGN CHOICE (log entry 12): where an argument byte of the command before it was lost
(20_memory.md R32), this byte is taken for that argument; R96 does not say. -/
def Panel.command (c : Config) (b : Byte) (p : Panel) : Panel :=
  match p.received with
  | [] =>
    if panelArguments b = 0 then p.single c b.toNat else { p with received := [b] }
  | [n] =>
    if panelArguments n = 1 then { p.withArgument n.toNat b.toNat with received := [] }
    else { p with received := [n, b] }
  | n :: a :: _ => { p.window n.toNat a.toNat b.toNat with received := [] }

/-- The pointers after a data write (R96). -/
def Panel.advance (p : Panel) : Panel :=
  if p.colEnd < p.colPtr + 1 then
    match p.mode with
    | .page => { p with colPtr := p.colStart }
    | .horizontal =>
      { p with colPtr := p.colStart, pagePtr := if p.pageEnd < p.pagePtr + 1 then p.pageStart else p.pagePtr + 1 }
  else { p with colPtr := p.colPtr + 1 }

/-- A data byte arrives (R96). DESIGN CHOICE (log entry 12): a pointer outside the panel's memory writes nothing, and a
command that still waits for an argument byte goes on waiting; R96 says neither. -/
def Panel.data (b : Byte) (p : Panel) : Panel :=
  if p.pagePtr < p.pages ∧ p.colPtr < 128 then
    { p with gddram := Memory.writeBlock p.gddram (p.pagePtr * 128 + p.colPtr) [b] }.advance
  else p.advance

/-- What the panel makes of an emission that reaches it. -/
def Panel.receive (c : Config) (a : Action) (p : Panel) : Panel :=
  match a with
  | .cmd b => p.command c b
  | .data b => p.data b
  | .wait _ => p

/-- What the panel makes of the event at index `n` of the log: a write with acknowledgement 0 may or may not have taken
effect (20_memory.md R32). DESIGN CHOICE (log entry 12): whether it did is a free value of the index alone, and hardware
reset empties the log, so a write after a reset shares its value with the write of that index before it. -/
def Panel.event (c : Config) (n : Nat) (e : Event) (p : Panel) : Panel :=
  if e.ack != some false || Config.freeLands n then p.receive c e.action else p

/-- The panel after a list of events, in order (20_memory.md R41), the first of them at index `n` of the log. -/
def Panel.run (c : Config) : Nat → List Event → Panel → Panel
  | _, [], p => p
  | n, e :: es, p => Panel.run c (n + 1) es (p.event c n e)

end Sys2Proof.Machine
end

