-- ==== Sys2Proof/Safety.lean ====
section
/-! DEFINITION. What a safe run is, the invariant of the states a run can reach, and the words the claims are stated in. -/

namespace Sys2Proof.Machine

/-- A state with a `FAULT` bit set counts as faulted and is never a final state (60_exceptions.md R87). -/
def State.faulted (s : State) : Prop := s.faults ≠ 0#4

/-- A claim about a command sequence takes "every `FAULT` bit is 0 at the end" as a premise (R87): `k` steps from `s` end
in `t` with no fault recorded and nothing left to do. -/
def SafeRun (k : Nat) (s t : State) : Prop := Sys2Proof.core.run k s = .next t ∧ ¬ t.faulted ∧ t.host = []

/-- What holds of every state a run can reach. -/
structure State.Inv (s : State) : Prop where
  /-- The configuration and the ROM are inside the spec (00_scope.md R8, 10_state.md R22). -/
  configured : s.configured = true
  /-- The framebuffer is in canonical form. -/
  canonical : s.fb.wf = true
  /-- Every address that holds a byte is a framebuffer address (20_memory.md R26). -/
  inRange : ∀ c ∈ s.fb, c.1 < s.cfg.len
  /-- In a session every framebuffer byte holds a value (41_init.md R56). -/
  full : s.inited = true → s.fb.map Prod.fst = List.range s.cfg.len
  /-- `0 ≤ CUR ≤ LEN` (43_buffered_print.md R78). -/
  cursor : s.cur.toNat ≤ s.cfg.len
  /-- Before the first INIT the framebuffer holds no value, and `CUR` and `VSRC` are 0 (10_state.md R14, R23). -/
  beforeSession : s.inited = false → s.fb = [] ∧ s.cur = 0#11 ∧ s.vsrc = .internal

/-! ### What a command emits -/

/-- `es` is what the TFC appends to the log when it emits `as` in order: each event emits its action, and the bus writes
among them get the transport's answers in order (10_state.md R19, 20_memory.md R32). -/
def Answers (s : State) (as : List Action) (es : List Event) : Prop :=
  es.map Event.action = as ∧ es.filterMap Event.ack = (List.range (busWrites as)).map s.ackAt

/-- The state after a command that emitted `es` and did nothing else: the log grows by `es`, the answers are used up, and
`FAIL` and the result say whether one of them was a failure (10_state.md R18, 30_encoding.md R46). -/
def State.afterWrites (s : State) (es : List Event) : State :=
  { s with
    log := s.log ++ es
    acks := s.acks.drop (es.filterMap Event.ack).length
    draws := s.draws + (es.filterMap Event.ack).length
    fail := es.any fun e => e.ack == some false
    reply := some (if es.any (fun e => e.ack == some false) then .fail else .ok) }

/-- `as[b]`, `as[b + 1]` and `as[b + 2]` are `SETCUR_EMIT(r, col)` (42_direct_path.md R62). -/
def SetcurEmittedAt (c : Config) (as : List Action) (b r col : Nat) : Prop :=
  as[b]? = some (.cmd (c.pageBase + BitVec.ofNat 8 r)) ∧
  as[b + 1]? = some (.cmd (c.colLoBase ||| BitVec.ofNat 8 (c.colStride * col % 16))) ∧
  as[b + 2]? = some (.cmd (c.colHiBase ||| BitVec.ofNat 8 (c.colStride * col / 16 % 16)))

/-- `as` is what `CLEAR_BODY` emits (42_direct_path.md R64), said by position: DISPLAY_OFF, for the cell of row `r` and
column `col` the `3 + GW` writes from position `1 + (3 + GW)(CHAR_COLUMNS r + col)` on, then DISPLAY_ON and
`SETCUR_EMIT(0, 0)`. -/
def IsClearBody (c : Config) (as : List Action) : Prop :=
  as.length = 5 + c.pages * c.charColumns * (3 + c.gw) ∧
  as[0]? = some (.cmd c.displayOff) ∧
  (∀ r col, r < c.pages → col < c.charColumns →
    SetcurEmittedAt c as (1 + (3 + c.gw) * (c.charColumns * r + col)) r col ∧
    ∀ i, i < c.gw → as[1 + (3 + c.gw) * (c.charColumns * r + col) + 3 + i]? = some (.data 0#8)) ∧
  as[1 + (3 + c.gw) * (c.charColumns * c.pages)]? = some (.cmd c.displayOn) ∧
  SetcurEmittedAt c as (2 + (3 + c.gw) * (c.charColumns * c.pages)) 0 0

/-- A command byte in the log. -/
def Event.isCmd : Event → Bool
  | .cmd _ _ => true
  | .data _ _ => false
  | .wait _ => false

/-- A data byte in the log. -/
def Event.isData : Event → Bool
  | .cmd _ _ => false
  | .data _ _ => true
  | .wait _ => false

/-- A busy-wait in the log. -/
def Event.isWait : Event → Bool
  | .cmd _ _ => false
  | .data _ _ => false
  | .wait _ => true

/-- Whether a result is FAULT (30_encoding.md R46). -/
def Reply.isFault : Reply → Bool
  | .ok => false
  | .fail => false
  | .fault _ => true

/-- The command that answered `s` raised a fault. -/
def State.answeredFault (s : State) : Bool := s.reply.any Reply.isFault

/-! ### The buffered print -/

/-- `CUR` after the overflow check of PRCHR (43_buffered_print.md R68 step 3). -/
def printCursor (s : State) : Nat :=
  if s.cfg.len - s.cfg.ovfMargin ≤ s.cur.toNat then s.cfg.len - s.cfg.rowb else s.cur.toNat

/-- The first index of the glyph that PRCHR would write (R68 steps 3 to 5). -/
def printIndex (s : State) : Nat := glyphStart s.cfg (printCursor s)

/-- What address `a` reads as after a Line Scroll of `s` (43_buffered_print.md R75, R76). -/
def scrolledRead (s : State) (a : Nat) : Option Byte :=
  if a + s.cfg.rowb < s.cfg.len then s.fb.read (a + s.cfg.rowb)
  else if a < s.cfg.len ∧ s.cfg.scrollFill = .zero then some 0#8
  else s.fb.read a

/-- What address `a` reads as after the overflow check of PRCHR. -/
def checkedRead (s : State) (a : Nat) : Option Byte :=
  if s.cfg.len - s.cfg.ovfMargin ≤ s.cur.toNat then scrolledRead s a else s.fb.read a

/-- A glyph's code, in the words of 42_direct_path.md R61. -/
def GlyphCode (c : Config) (ch : Nat) : Prop := c.glyphBase ≤ ch ∧ ch < c.glyphBase + c.glyphCount

/-- When a presented word raises a fault, and with which information (60_exceptions.md R85, R88). -/
def FaultCause (s : State) (w : Word) : FaultInfo → Prop
  | .illegal w' => w' = w ∧ ∃ r, decode w = .illegal r
  | .notInitPrchr ch => decode w = .ok (.prchr ch) ∧ s.inited = false
  | .notInitFlush => decode w = .ok .flush ∧ s.inited = false
  | .cursorRange row col => decode w = .ok (.setcur row col) ∧ (s.cfg.pages ≤ row ∨ s.cfg.charColumns ≤ col)
  | .fbOob p => ∃ ch, decode w = .ok (.prchr ch) ∧ s.inited = true ∧ ch ≠ s.cfg.nlCode ∧ GlyphCode s.cfg ch ∧
      p = printIndex s ∧ s.cfg.len < p + s.cfg.gw

/-- The layout parameters of the test configuration TC (00_scope.md R9); newline mode, fill and bytes are free. -/
def TestLayout (c : Config) : Prop :=
  c.w = 128 ∧ c.pages = 8 ∧ c.gw = 6 ∧ c.glyphPages = 1 ∧ c.ovfMargin = 2 ∧ c.wrapCol = 126 ∧ c.wrapSkip = 2

/-- The cursor values of TC (43_buffered_print.md R78, R79): the start of a row plus up to 18 glyph slots. -/
def OnGrid (n : Nat) : Prop := ∃ r j, r ≤ 7 ∧ j ≤ 18 ∧ n = 128 * r + 7 * j

end Sys2Proof.Machine
end

