-- ==== Sys2Proof/Certificates/Slice0/Obligations.lean ====
section
/-! DEFINITION. The statements for the provers. `n#4` literals of `FAULT` are the bits of 10_state.md R21. -/

open Sys2Proof Sys2Proof.Machine

/-! ## Encoding -/

/-- 30_encoding.md sections 2 and 3: the word of a command decodes to that command, for every operand its field admits. -/
def Obligations.DecodeOfEncodeIsTheCommand : Prop :=
  ∀ i : Instr, i.wellFormed = true → decode (encode i) = .ok i

/-- 30_encoding.md sections 2 and 3: a word that decodes is the one word of a command with an encoding. -/
def Obligations.EncodeOfDecodeIsTheWord : Prop :=
  ∀ (w : Word) (i : Instr), decode w = .ok i → i.wellFormed = true ∧ encode i = w

/-- R47: a word is command X exactly when `w AND mask(X) = match(X)`, its operands are the table's bits, and at most one
row of the table matches it. -/
def Obligations.DecodeFollowsMaskTable : Prop :=
  ∀ w : Word,
    (w &&& 0xFFFE#16 = 0x1000#16 ↔ decode w = .ok (.init (if w.getLsbD 0 then .external else .internal))) ∧
    (w &&& 0xFFFF#16 = 0x2000#16 ↔ decode w = .ok .clear) ∧
    (w &&& 0xF000#16 = 0x3000#16 ↔
      decode w = .ok (.setcur (w.extractLsb' 8 4).toNat (w.extractLsb' 0 8).toNat)) ∧
    (w &&& 0xFF00#16 = 0x4000#16 ↔ decode w = .ok (.wrchr (w.extractLsb' 0 8).toNat)) ∧
    (w &&& 0xFF00#16 = 0x5000#16 ↔ decode w = .ok (.prchr (w.extractLsb' 0 8).toNat)) ∧
    (w &&& 0xFFFF#16 = 0x6000#16 ↔ decode w = .ok .flush) ∧
    ∀ r ∈ opcodeTable, ∀ r' ∈ opcodeTable, r.accepts w = true → r'.accepts w = true → r = r'

/-- R48: the operands of a decoded word are its fields `w[0]`, `w[11:8]` and `w[7:0]`, and every value of `CH`, `ROW` and
`COL` is a legal encoding. -/
def Obligations.OperandsAreTheFields : Prop :=
  (∀ (w : Word) (v : VSource), decode w = .ok (.init v) → (v = .external ↔ w.getLsbD 0 = true)) ∧
  (∀ (w : Word) (row col : Nat), decode w = .ok (.setcur row col) →
    row = (w.extractLsb' 8 4).toNat ∧ col = (w.extractLsb' 0 8).toNat) ∧
  (∀ (w : Word) (ch : Nat), decode w = .ok (.wrchr ch) ∨ decode w = .ok (.prchr ch) →
    ch = (w.extractLsb' 0 8).toNat) ∧
  (∀ ch : Nat, ch ≤ 255 → (∃ w, decode w = .ok (.wrchr ch)) ∧ ∃ w, decode w = .ok (.prchr ch)) ∧
  (∀ row col : Nat, row ≤ 15 → col ≤ 255 → ∃ w, decode w = .ok (.setcur row col))

/-- R49: a reserved opcode or a 1 in a must-be-zero bit faults ILLEGAL and changes nothing else; every other word is a
command. -/
def Obligations.IllegalWordFaultsAndChangesNothingElse : Prop :=
  ∀ w : Word,
    let op := (w.extractLsb' 12 4).toNat
    let illegal := op = 0 ∨ 7 ≤ op ∨ (op = 1 ∧ w.extractLsb' 1 11 ≠ 0#11) ∨
      ((op = 2 ∨ op = 6) ∧ w.extractLsb' 0 12 ≠ 0#12) ∨ ((op = 4 ∨ op = 5) ∧ w.extractLsb' 8 4 ≠ 0#4)
    (illegal → ∀ (s : State) (rest : List HostEvent), s.configured = true → s.host = .command w :: rest →
      step s = .next { s with
        host := rest, faults := s.faults ||| 0b0001#4, reply := some (.fault (.illegal w)) }) ∧
    (¬ illegal → ∃ i, decode w = .ok i)

/-- 30_encoding.md section 2 and the words of 95_test_vectors.md section 2.1 (sanity). -/
def Obligations.WrittenOutWordsDecode : Prop :=
  decode 0b0001000000000001#16 = .ok (.init .external) ∧ decode 0b0001000000000000#16 = .ok (.init .internal) ∧
  decode 0b0010000000000000#16 = .ok .clear ∧ decode 0b0011001000000011#16 = .ok (.setcur 2 3) ∧
  decode 0b0100000001000001#16 = .ok (.wrchr 65) ∧ decode 0b0101000000001010#16 = .ok (.prchr 10) ∧
  decode 0b0110000000000000#16 = .ok .flush ∧ decode 0b0101111101000001#16 = .illegal .mustBeZero ∧
  decode 0b0111000000000000#16 = .illegal .reservedOpcode

/-- 20_memory.md section 2 (R33): a word carried as two bytes, in either order of `HOST_BYTE_ORDER`, is the same word. -/
def Obligations.HostBytesCarryTheWord : Prop :=
  ∀ (o : ByteOrder) (w : Word) (rest : List Byte), wordOfHostBytes o (hostBytes o w ++ rest) = some (w, rest)

/-- 30_encoding.md section 5 (R51): an operand outside its field has no encoding, every other command has one. -/
def Obligations.AssemblerRefusesWideOperands : Prop :=
  (∀ row col, encodeChecked (.setcur row col) = none ↔ 15 < row ∨ 255 < col) ∧
  (∀ ch, encodeChecked (.wrchr ch) = none ↔ 255 < ch) ∧ (∀ ch, encodeChecked (.prchr ch) = none ↔ 255 < ch)

/-- 30_encoding.md section 5 (R52): `WRSTR "s"` assembles to one WRCHR word per byte of `s`, in order, and `PRSTR "s"` to
one PRCHR word, for every string of characters with codes up to 255 and without a double quote. That a quoted string has no
escape, ends at the next double quote and that its bytes are its characters' codes is the model's choice (log entry 13). -/
def Obligations.StringCommandsExpandPerByte : Prop :=
  ∀ cs : List Char, (∀ c ∈ cs, c ≠ '"' ∧ c.toNat ≤ 255) →
    assembleLine (['W', 'R', 'S', 'T', 'R', ' ', '"'] ++ cs ++ ['"']) =
      some (cs.map fun c => BitVec.ofNat 16 (0x4000 + c.toNat)) ∧
    assembleLine (['P', 'R', 'S', 'T', 'R', ' ', '"'] ++ cs ++ ['"']) =
      some (cs.map fun c => BitVec.ofNat 16 (0x5000 + c.toNat))

/-! ## The step -/

/-- 30_encoding.md section 1 (R45): a step with a command word presented runs the command it decodes to, on the state with
that word taken off the host's list. -/
def Obligations.StepRunsThePresentedCommand : Prop :=
  ∀ (s : State) (w : Word) (i : Instr) (rest : List HostEvent), s.configured = true →
    s.host = .command w :: rest → decode w = .ok i → step s = exec i { s with host := rest }

/-- 60_exceptions.md section 5 (R95): with nothing presented the TFC is idle and holds its state. -/
def Obligations.IdleStepHoldsTheState : Prop :=
  ∀ s : State, s.configured = true → s.host = [] → step s = .next s

/-- 70_reset_and_hazards.md section 3 (R101): a command presented while another runs is refused. -/
def Obligations.OverlappingCommandIsRefused : Prop :=
  ∀ (s : State) (w : Word) (rest : List HostEvent), s.configured = true → s.host = .overlap w :: rest →
    step s = .refused .overlappingCommand

/-- R8: a configuration that breaks one of the constraints is refused, whatever is presented. -/
def Obligations.ConfigurationOutsideTheSpecIsRefused : Prop :=
  ∀ s : State,
    ¬ (1 ≤ s.cfg.w ∧ 1 ≤ s.cfg.pages ∧ 1 ≤ s.cfg.gw ∧ s.cfg.len = s.cfg.w * s.cfg.pages ∧
      95 ≤ s.cfg.glyphCount ∧ s.cfg.glyphBase + s.cfg.glyphCount ≤ 256 ∧ s.cfg.nlCode < s.cfg.glyphBase ∧
      s.cfg.colStride * (s.cfg.charColumns - 1) ≤ s.cfg.w - 1 ∧ s.cfg.w * s.cfg.glyphPages ≤ s.cfg.len) →
    step s = .refused .configuration

/-! ## Reset -/

/-- R23 and R97: after hardware reset `FB` holds no value, the registers and flags are 0, the log is empty, the ROM is the
fixed ROM, and PRCHR and FLUSH fault NOT_INIT; reset answers from every configured state, and it is the only event that
clears a `FAULT` bit or `INITED`. (The parameters stay, and so does what the world outside will do.) -/
def Obligations.HardwareResetLeavesTheResetValues : Prop :=
  (∀ (c : Config) (rom : List Byte),
    let s := State.resetWith c rom
    (∀ a, s.fb.read a = none) ∧ s.cur = 0#11 ∧ s.vsrc = .internal ∧ s.inited = false ∧ s.fail = false ∧
      s.faults = 0#4 ∧ s.rom = rom ∧ s.log = [] ∧
      (∀ ch, exec (.prchr ch) s = .next { s with faults := 0b0010#4, reply := some (.fault (.notInitPrchr ch)) }) ∧
      exec .flush s = .next { s with faults := 0b0010#4, reply := some (.fault .notInitFlush) }) ∧
  (∀ (s : State) (rest : List HostEvent), s.configured = true → s.host = .reset :: rest →
    ∃ t, step s = .next t ∧ (∀ a, t.fb.read a = none) ∧ t.cur = 0#11 ∧ t.vsrc = .internal ∧ t.inited = false ∧
      t.fail = false ∧ t.faults = 0#4 ∧ t.rom = s.rom ∧ t.log = [] ∧ t.cfg = s.cfg ∧ t.host = rest) ∧
  ∀ s t : State, step s = .next t →
    ((s.inited = true ∧ t.inited = false) ∨ ∃ k, s.faults.getLsbD k = true ∧ t.faults.getLsbD k = false) →
    ∃ rest, s.host = .reset :: rest

/-- The reset state meets the invariant, for `State.reset` (whose configuration is the model's choice where the spec leaves
a parameter open: log entries 1 and 2) and for every configuration inside the spec. -/
def Obligations.ResetStateMeetsTheInvariant : Prop :=
  State.reset.Inv ∧
  ∀ (c : Config) (rom : List Byte), c.valid = true → c.romOk rom = true → (State.resetWith c rom).Inv

/-! ## Initialization -/

/-- R54, R55, R57: INIT runs in every state (a second time too). It emits `INIT_SEQ(V)` and then CLEAR's writes, all of
them whatever the answers are; the result is FAIL exactly when one of them was not acknowledged; every framebuffer byte is
0, `CUR` 0, `VSRC` the operand, `INITED` 1, and nothing else changes, `FAULT` included. -/
def Obligations.InitFollowsItsRule : Prop :=
  decode 0x1000#16 = .ok (.init .internal) ∧ decode 0x1001#16 = .ok (.init .external) ∧
  ∀ (s : State) (v : VSource), s.configured = true →
    ∃ es body m, IsClearBody s.cfg body ∧ Answers s (initSeq s.cfg v ++ body) es ∧
      (∀ a, Memory.read m a = if a < s.cfg.len then some 0#8 else s.fb.read a) ∧
      exec (.init v) s = .next { s.afterWrites es with vsrc := v, fb := m, cur := 0#11, inited := true }

/-- 41_init.md section 2 (R58): `INIT_SEQ(V)` is the power-on delay, the thirteen named steps in order, the display-on
delay, and of the charge-pump, contrast and pre-charge steps the value alone depends on `V`. -/
def Obligations.InitSequenceHasTheNamedSteps : Prop :=
  ∀ c : Config,
    initSeq c .internal = [.wait c.tPowerOn] ++ (c.initSteps.clockDivider ++ c.initSteps.multiplexRatio ++
      c.initSteps.displayOffset ++ c.initSteps.startLine ++
      (c.initSteps.chargePump.before ++ [c.initSteps.chargePump.internal] ++ c.initSteps.chargePump.after) ++
      c.initSteps.memoryMode ++ c.initSteps.segmentRemap ++ c.initSteps.scanDirection ++ c.initSteps.comPins ++
      (c.initSteps.contrast.before ++ [c.initSteps.contrast.internal] ++ c.initSteps.contrast.after) ++
      (c.initSteps.preCharge.before ++ [c.initSteps.preCharge.internal] ++ c.initSteps.preCharge.after) ++
      c.initSteps.vcomDetect ++ c.initSteps.displayOn).map .cmd ++ [.wait c.tDisplayOn] ∧
    initSeq c .external = [.wait c.tPowerOn] ++ (c.initSteps.clockDivider ++ c.initSteps.multiplexRatio ++
      c.initSteps.displayOffset ++ c.initSteps.startLine ++
      (c.initSteps.chargePump.before ++ [c.initSteps.chargePump.external] ++ c.initSteps.chargePump.after) ++
      c.initSteps.memoryMode ++ c.initSteps.segmentRemap ++ c.initSteps.scanDirection ++ c.initSteps.comPins ++
      (c.initSteps.contrast.before ++ [c.initSteps.contrast.external] ++ c.initSteps.contrast.after) ++
      (c.initSteps.preCharge.before ++ [c.initSteps.preCharge.external] ++ c.initSteps.preCharge.after) ++
      c.initSteps.vcomDetect ++ c.initSteps.displayOn).map .cmd ++ [.wait c.tDisplayOn]

/-- 41_init.md section 2 (R58 item 2) and R54: inside the spec the two init sequences differ in exactly three items. -/
def Obligations.InitSequencesDifferInThreeItems : Prop :=
  ∀ c : Config, c.valid = true → ∃ i j k : Nat, i < j ∧ j < k ∧
    ∀ n, (initSeq c .internal)[n]? ≠ (initSeq c .external)[n]? ↔ n = i ∨ n = j ∨ n = k

/-- The model's choice (log entry 6): it refuses an init sequence with an empty step, with a mode-dependent step that has
one value for both modes, whose addressing-mode step is not exactly the bytes of the parameter `selectHorizontal`, or whose
display-on step lacks `DISPLAY_ON`. The conditions are deduced from R58 and R53; R8 asks refusal of its own constraints
only. -/
def Obligations.InitSequenceOutsideTheRuleIsRefused : Prop :=
  ∀ s : State,
    let t := s.cfg.initSteps
    ([] ∈ [t.clockDivider, t.multiplexRatio, t.displayOffset, t.startLine, t.memoryMode, t.segmentRemap,
        t.scanDirection, t.comPins, t.vcomDetect, t.displayOn] ∨
      t.chargePump.internal = t.chargePump.external ∨ t.contrast.internal = t.contrast.external ∨
      t.preCharge.internal = t.preCharge.external ∨ t.memoryMode ≠ s.cfg.selectHorizontal ∨
      s.cfg.displayOn ∉ t.displayOn) →
    step s = .refused .configuration

/-- 41_init.md R58 item 5 under the reference panel of 60_exceptions.md R96 (a named assumption from general knowledge, log
entry 12): with the default sequence and command bytes, after an INIT with every write acknowledged the panel is in
horizontal addressing mode and on, and waits for no argument byte. (With more than 24 pages a page command of CLEAR is also
another command of the panel: log entry 12.) -/
def Obligations.AcknowledgedInitSelectsHorizontalMode : Prop :=
  ∀ (s t : State) (v : VSource) (es : List Event) (p : Panel), s.configured = true →
    s.cfg.initSteps = defaultInitSteps → s.cfg.displayOff = 0xAE#8 → s.cfg.displayOn = 0xAF#8 →
    s.cfg.pageBase = 0xB0#8 → s.cfg.colLoBase = 0x00#8 → s.cfg.colHiBase = 0x10#8 → s.cfg.pages ≤ 24 →
    p.pages = s.cfg.pages → p.received = [] →
    exec (.init v) s = .next t → t.log = s.log ++ es → t.fail = false →
      (Panel.run s.cfg s.log.length es p).mode = .horizontal ∧
      (Panel.run s.cfg s.log.length es p).displayOn = true ∧
      (Panel.run s.cfg s.log.length es p).received = []

/-- R59: the default `INIT_SEQ(V)`, byte by byte. -/
def Obligations.DefaultInitSequenceIsTheTable : Prop :=
  ∀ c : Config, c.initSteps = defaultInitSteps →
    initSeq c .internal = [.wait c.tPowerOn, .cmd 0xD5#8, .cmd 0x80#8, .cmd 0xA8#8, .cmd 0x3F#8, .cmd 0xD3#8,
      .cmd 0x00#8, .cmd 0x40#8, .cmd 0x8D#8, .cmd 0x14#8, .cmd 0x20#8, .cmd 0x00#8, .cmd 0xA1#8, .cmd 0xC8#8,
      .cmd 0xDA#8, .cmd 0x12#8, .cmd 0x81#8, .cmd 0xCF#8, .cmd 0xD9#8, .cmd 0xF1#8, .cmd 0xDB#8, .cmd 0x40#8,
      .cmd 0xAF#8, .wait c.tDisplayOn] ∧
    initSeq c .external = [.wait c.tPowerOn, .cmd 0xD5#8, .cmd 0x80#8, .cmd 0xA8#8, .cmd 0x3F#8, .cmd 0xD3#8,
      .cmd 0x00#8, .cmd 0x40#8, .cmd 0x8D#8, .cmd 0x10#8, .cmd 0x20#8, .cmd 0x00#8, .cmd 0xA1#8, .cmd 0xC8#8,
      .cmd 0xDA#8, .cmd 0x12#8, .cmd 0x81#8, .cmd 0x9F#8, .cmd 0xD9#8, .cmd 0x22#8, .cmd 0xDB#8, .cmd 0x40#8,
      .cmd 0xAF#8, .wait c.tDisplayOn]

/-! ## The direct path -/

/-- R61: which codes have a glyph, and its number; with the hardware's `GLYPH_BASE` and `GLYPH_COUNT` (R7) 32 to 126. -/
def Obligations.CodesWithAGlyph : Prop :=
  (∀ (c : Config) (ch : Nat),
    (hasGlyph c ch = true ↔ c.glyphBase ≤ ch ∧ ch < c.glyphBase + c.glyphCount) ∧
    glyphNumber c ch = ch - c.glyphBase) ∧
  ∀ (c : Config) (ch : Nat), c.glyphBase = 32 → c.glyphCount = 95 → (hasGlyph c ch = true ↔ 32 ≤ ch ∧ ch ≤ 126)

/-- R63: SETCUR of a legal cell emits the three addressing bytes and nothing else changes; out of range it faults
CURSOR_RANGE before any byte is emitted. -/
def Obligations.SetcurFollowsItsRule : Prop :=
  (∀ row col : Nat, row ≤ 15 → col ≤ 255 →
    decode (BitVec.ofNat 16 (0x3000 + row * 256 + col)) = .ok (.setcur row col)) ∧
  (∀ (s : State) (row col : Nat), row < s.cfg.pages → col < s.cfg.charColumns →
    ∃ es, Answers s
        [.cmd (s.cfg.pageBase + BitVec.ofNat 8 row),
         .cmd (s.cfg.colLoBase ||| BitVec.ofNat 8 (s.cfg.colStride * col % 16)),
         .cmd (s.cfg.colHiBase ||| BitVec.ofNat 8 (s.cfg.colStride * col / 16 % 16))] es ∧
      exec (.setcur row col) s = .next (s.afterWrites es)) ∧
  (∀ (s : State) (row col : Nat), s.cfg.pages ≤ row ∨ s.cfg.charColumns ≤ col →
    exec (.setcur row col) s = .next { s with
      faults := s.faults ||| 0b0100#4, reply := some (.fault (.cursorRange row col)) })

/-- R64: CLEAR makes all its writes in order, whatever the answers are, and changes nothing but the log, the answers used
up, `FAIL` and the result. -/
def Obligations.ClearFollowsItsRule : Prop :=
  decode 0x2000#16 = .ok .clear ∧
  ∀ s : State, s.configured = true →
    ∃ es body, IsClearBody s.cfg body ∧ Answers s body es ∧ exec .clear s = .next (s.afterWrites es)

/-- R67: WRCHR of a code with a glyph sends its bytes in increasing order and nothing else changes; a code without one is
dropped with `FAIL` 0 and the result OK. -/
def Obligations.WrchrFollowsItsRule : Prop :=
  (∀ ch : Nat, ch ≤ 255 → decode (BitVec.ofNat 16 (0x4000 + ch)) = .ok (.wrchr ch)) ∧
  (∀ (s : State) (ch : Nat), s.configured = true → GlyphCode s.cfg ch →
    ∃ (es : List Event) (g : List Byte), g.length = s.cfg.gw ∧ (∀ i, i < s.cfg.gw → g[i]? = s.rom[(ch - s.cfg.glyphBase) * s.cfg.gw + i]?) ∧
      Answers s (g.map .data) es ∧ exec (.wrchr ch) s = .next (s.afterWrites es)) ∧
  (∀ (s : State) (ch : Nat), ¬ GlyphCode s.cfg ch →
    exec (.wrchr ch) s = .next { s with fail := false, reply := some .ok })

/-- The frame of the direct path (10_state.md R14, R15, 42_direct_path.md R65): SETCUR, CLEAR and WRCHR leave every
framebuffer byte, `CUR`, `VSRC`, `INITED`, the ROM and the parameters as they were, and only append to the log. -/
def Obligations.DirectPathLeavesTheSession : Prop :=
  ∀ (s t : State) (i : Instr), (i = .clear ∨ (∃ row col, i = .setcur row col) ∨ ∃ ch, i = .wrchr ch) →
    exec i s = .next t →
      (∀ a, t.fb.read a = s.fb.read a) ∧ t.fb = s.fb ∧ t.cur = s.cur ∧ t.vsrc = s.vsrc ∧ t.inited = s.inited ∧
        t.rom = s.rom ∧ t.cfg = s.cfg ∧ t.host = s.host ∧ (∃ es, t.log = s.log ++ es) ∧
        ((∀ row col, i ≠ .setcur row col) → t.faults = s.faults)

/-! ## The buffered print -/

/-- R71: PRCHR before the first INIT faults NOT_INIT, for every code. -/
def Obligations.PrchrBeforeInitFaults : Prop :=
  ∀ (s : State) (ch : Nat), s.inited = false →
    exec (.prchr ch) s = .next { s with faults := s.faults ||| 0b0010#4, reply := some (.fault (.notInitPrchr ch)) }

/-- R70: PRCHR of a code without a glyph that is not the newline changes nothing but `FAIL` and the result. -/
def Obligations.PrchrDropsCodesWithoutAGlyph : Prop :=
  ∀ (s : State) (ch : Nat), s.inited = true → ch ≠ s.cfg.nlCode → ¬ GlyphCode s.cfg ch →
    exec (.prchr ch) s = .next { s with fail := false, reply := some .ok }

/-- 43_buffered_print.md section 1 (R68): PRCHR of a code with a glyph that fits writes the glyph's bytes from
`printIndex` on; every byte outside them reads as it did, or as the Line Scroll of the overflow check leaves it; `CUR` is
past the glyph; nothing else changes. -/
def Obligations.PrchrPlacesTheGlyph : Prop :=
  ∀ (s : State) (ch : Nat), s.Inv → s.inited = true → ch ≠ s.cfg.nlCode → GlyphCode s.cfg ch →
    printIndex s + s.cfg.gw ≤ s.cfg.len →
    ∃ m, exec (.prchr ch) s = .next { s with
        fb := m, cur := BitVec.ofNat 11 (printIndex s + s.cfg.gw), fail := false, reply := some .ok } ∧
      (∀ i, i < s.cfg.gw →
        Memory.read m (printIndex s + i) = s.rom[(ch - s.cfg.glyphBase) * s.cfg.gw + i]?) ∧
      ∀ a, a < printIndex s ∨ printIndex s + s.cfg.gw ≤ a → Memory.read m a = checkedRead s a

/-- R69: how far `CUR` moves. -/
def Obligations.PrchrAdvancesTheCursor : Prop :=
  ∀ (s t : State) (ch : Nat), s.Inv → s.inited = true → GlyphCode s.cfg ch → exec (.prchr ch) s = .next t →
    t.reply = some .ok →
      (s.cur.toNat < s.cfg.len - s.cfg.ovfMargin → (s.cur.toNat + 1) % s.cfg.w < s.cfg.wrapCol →
        t.cur.toNat = s.cur.toNat + (1 + s.cfg.gw)) ∧
      (s.cur.toNat < s.cfg.len - s.cfg.ovfMargin → s.cfg.wrapCol ≤ (s.cur.toNat + 1) % s.cfg.w →
        t.cur.toNat = s.cur.toNat + (1 + s.cfg.wrapSkip + s.cfg.gw)) ∧
      (s.cfg.len - s.cfg.ovfMargin ≤ s.cur.toNat → (s.cfg.len - s.cfg.rowb + 1) % s.cfg.w < s.cfg.wrapCol →
        t.cur.toNat = s.cfg.len - s.cfg.rowb + 1 + s.cfg.gw) ∧
      (s.cfg.len - s.cfg.ovfMargin ≤ s.cur.toNat → s.cfg.wrapCol ≤ (s.cfg.len - s.cfg.rowb + 1) % s.cfg.w →
        t.cur.toNat = s.cfg.len - s.cfg.rowb + 1 + s.cfg.wrapSkip + s.cfg.gw) ∧
      (∀ i, i < s.cfg.gw → t.fb.read (t.cur.toNat - s.cfg.gw + i) =
        s.rom[(ch - s.cfg.glyphBase) * s.cfg.gw + i]?) ∧
      ∀ a, a < t.cur.toNat - s.cfg.gw ∨ t.cur.toNat ≤ a → t.fb.read a = checkedRead s a

/-- R72: a glyph that would reach past the last byte faults FB_OOB with its first index, and nothing is kept, a Line Scroll
of the same command included. -/
def Obligations.PrchrPastTheEndFaults : Prop :=
  ∀ (s : State) (ch : Nat), s.Inv → s.inited = true → ch ≠ s.cfg.nlCode → GlyphCode s.cfg ch →
    s.cfg.len < printIndex s + s.cfg.gw →
    exec (.prchr ch) s = .next { s with
      faults := s.faults ||| 0b1000#4, reply := some (.fault (.fbOob (printIndex s))) }

/-- R74: the newline writes no glyph byte. In NEXT_ROW mode it moves `CUR` to the start of the next row, scrolling past
the last; in SCROLL mode it always scrolls. -/
def Obligations.NewlineFollowsItsRule : Prop :=
  ∀ s : State, s.Inv → s.inited = true →
    let r := s.cur.toNat / s.cfg.rowb + 1
    let scrolls := s.cfg.newlineMode = .scroll ∨ s.cfg.len / s.cfg.rowb ≤ r
    (¬ scrolls → exec (.prchr s.cfg.nlCode) s = .next { s with
      cur := BitVec.ofNat 11 (r * s.cfg.rowb), fail := false, reply := some .ok }) ∧
    (scrolls → ∃ m, exec (.prchr s.cfg.nlCode) s = .next { s with
        fb := m, cur := BitVec.ofNat 11 (s.cfg.len - s.cfg.rowb), fail := false, reply := some .ok } ∧
      ∀ a, Memory.read m a = scrolledRead s a)

/-- R75 and R76: the Line Scroll moves rows 1 to last up by one, fills the bottom row by `SCROLL_FILL`, puts `CUR` at the
start of the last row, and changes nothing else. -/
def Obligations.LineScrollMovesTheRowsUp : Prop :=
  ∀ s : State, s.Inv → s.inited = true →
    ∃ m, lineScroll s = .ok { s with fb := m, cur := BitVec.ofNat 11 (s.cfg.len - s.cfg.rowb) } ∧
      (BitVec.ofNat 11 (s.cfg.len - s.cfg.rowb)).toNat = s.cfg.len - s.cfg.rowb ∧
      (∀ a, a < s.cfg.len - s.cfg.rowb → Memory.read m a = s.fb.read (a + s.cfg.rowb)) ∧
      (∀ a, s.cfg.len - s.cfg.rowb ≤ a → a < s.cfg.len → s.cfg.scrollFill = .zero →
        Memory.read m a = some 0#8) ∧
      (∀ a, s.cfg.len - s.cfg.rowb ≤ a → a < s.cfg.len → s.cfg.scrollFill = .keep →
        Memory.read m a = s.fb.read a) ∧
      ∀ a, s.cfg.len ≤ a → Memory.read m a = s.fb.read a

/-- The frame of PRCHR (70_reset_and_hazards.md R102): it emits nothing and changes only `FB`, `CUR`, `FAIL`, the result
and, when it faults, `FAULT`; when it faults `FB` and `CUR` stay too. -/
def Obligations.PrchrIsInvisibleUntilFlush : Prop :=
  ∀ (s t : State) (ch : Nat), exec (.prchr ch) s = .next t →
    t.log = s.log ∧ t.acks = s.acks ∧ t.draws = s.draws ∧ t.vsrc = s.vsrc ∧ t.inited = s.inited ∧ t.rom = s.rom ∧
      t.cfg = s.cfg ∧ t.host = s.host ∧
      (t.answeredFault = true → t.fb = s.fb ∧ t.cur = s.cur ∧ t.fail = s.fail) ∧
      (t.answeredFault = false → t.faults = s.faults ∧ t.fail = false)

/-- 43_buffered_print.md section 4 (R79), one command at a time: in TC, from slot `j` of row `r`, a glyph lands in the
next slot, after slot 17 in the next row, and from the end of row 7 in slot 0 of row 7 after a scroll. -/
def Obligations.TestLayoutPlacesGlyphsInSlots : Prop :=
  ∀ (s : State) (ch r j : Nat), s.Inv → TestLayout s.cfg → s.inited = true → ch ≠ s.cfg.nlCode → GlyphCode s.cfg ch →
    r ≤ 7 → j ≤ 18 → s.cur.toNat = 128 * r + 7 * j →
    ∃ t, exec (.prchr ch) s = .next t ∧ t.reply = some .ok ∧
      (j ≤ 17 → t.cur.toNat = 128 * r + 7 * (j + 1) ∧ printIndex s = 128 * r + 1 + 7 * j) ∧
      (j = 18 → r < 7 → t.cur.toNat = 128 * (r + 1) + 7 ∧ printIndex s = 128 * (r + 1) + 1) ∧
      (j = 18 → r = 7 → t.cur.toNat = 903 ∧ printIndex s = 897) ∧
      ∀ i, i < 6 → t.fb.read (printIndex s + i) = s.rom[(ch - s.cfg.glyphBase) * 6 + i]?

/-! ## Flush -/

/-- R80 and R81: FLUSH before the first INIT faults NOT_INIT; in a session it sends the two windows and then every
framebuffer byte in order, whatever the answers are, and changes nothing but the log, the answers used up, `FAIL` and the
result. -/
def Obligations.FlushFollowsItsRule : Prop :=
  decode 0x6000#16 = .ok .flush ∧
  (∀ s : State, s.inited = false →
    exec .flush s = .next { s with faults := s.faults ||| 0b0010#4, reply := some (.fault .notInitFlush) }) ∧
  ∀ s : State, s.Inv → s.inited = true →
    ∃ (es : List Event) (bytes : List Byte), bytes.length = s.cfg.len ∧ (∀ i, i < s.cfg.len → s.fb.read i = bytes[i]?) ∧
      Answers s ([.cmd s.cfg.setColWindow, .cmd 0#8, .cmd (BitVec.ofNat 8 (s.cfg.w - 1)),
        .cmd s.cfg.setPageWindow, .cmd 0#8, .cmd (BitVec.ofNat 8 (s.cfg.pages - 1))] ++ bytes.map .data) es ∧
      exec .flush s = .next (s.afterWrites es)

/-- 42_direct_path.md section 3 (R65): after a FLUSH and a CLEAR the next FLUSH sends the framebuffer as it was before. -/
def Obligations.FlushAfterClearSendsTheSameBytes : Prop :=
  ∀ s : State, s.Inv → s.inited = true →
    ∃ (t u v : State) (first body second : List Event), exec .flush s = .next t ∧ exec .clear t = .next u ∧ exec .flush u = .next v ∧
      t.log = s.log ++ first ∧ u.log = t.log ++ body ∧ v.log = u.log ++ second ∧
      second.map Event.action = first.map Event.action ∧ first.length = 6 + s.cfg.len ∧
      v.fb = s.fb ∧ v.cur = s.cur

/-- 44_flush.md R83 under the reference panel of 60_exceptions.md R96 (a named assumption from general knowledge, log entry
12): a panel in horizontal mode with no command half received shows, after a fully acknowledged FLUSH, framebuffer byte `i`
at page `i div W`, column `i mod W`, and its pointers are back at (0, 0). -/
def Obligations.AcknowledgedFlushShowsTheFramebuffer : Prop :=
  ∀ (s t : State) (es : List Event) (p : Panel), s.Inv → s.inited = true → s.cfg.w ≤ 128 →
    s.cfg.setColWindow = 0x21#8 → s.cfg.setPageWindow = 0x22#8 →
    p.pages = s.cfg.pages → p.mode = .horizontal → p.received = [] →
    exec .flush s = .next t → t.log = s.log ++ es → t.fail = false →
      (∀ i, i < s.cfg.len →
        (Panel.run s.cfg s.log.length es p).pixelByte (i / s.cfg.w) (i % s.cfg.w) = s.fb.read i) ∧
      (Panel.run s.cfg s.log.length es p).pagePtr = 0 ∧ (Panel.run s.cfg s.log.length es p).colPtr = 0

/-! ## Status, faults and results -/

/-- R18: after a command that completed, `FAIL` is 1 exactly when one of its bus writes was not acknowledged, and the
result says so; a faulted command leaves it. -/
def Obligations.FailMeansAMissingAcknowledgement : Prop :=
  ∀ (s t : State) (w : Word), runCommand w s = .next t →
    (t.answeredFault = false → ∃ es, t.log = s.log ++ es ∧ (t.fail = true ↔ ∃ e ∈ es, e.ack = some false) ∧
      t.reply = some (if t.fail then .fail else .ok)) ∧
    (t.answeredFault = true → t.fail = s.fail)

/-- 10_state.md section 5 (R19) and 20_memory.md R32: a command only appends to the log, and its bus writes record the
transport's next answers, in order. -/
def Obligations.LogRecordsTheAnswersInOrder : Prop :=
  ∀ (s t : State) (w : Word), runCommand w s = .next t →
    ∃ es, t.log = s.log ++ es ∧
      es.filterMap Event.ack = (List.range (es.filterMap Event.ack).length).map s.ackAt ∧
      t.draws = s.draws + (es.filterMap Event.ack).length ∧
      ∀ n, t.ackAt n = s.ackAt ((es.filterMap Event.ack).length + n)

/-- 41_init.md R55 and 20_memory.md R32 for every command: the answers of the transport change nothing but the recorded
answers, `FAIL` and the result. What is emitted, `FB`, `CUR`, `VSRC`, `INITED` and `FAULT` do not depend on them. -/
def Obligations.AnswersReachOnlyTheStatus : Prop :=
  ∀ (s t : State) (i : Instr) (answers : List Bool) (count : Nat), exec i s = .next t →
    ∃ t', exec i { s with acks := answers, draws := count } = .next t' ∧
      t'.fb = t.fb ∧ t'.cur = t.cur ∧ t'.vsrc = t.vsrc ∧ t'.inited = t.inited ∧ t'.faults = t.faults ∧
      t'.rom = t.rom ∧ t'.cfg = t.cfg ∧ t'.host = t.host ∧
      t'.log.map Event.action = t.log.map Event.action ∧ t'.answeredFault = t.answeredFault

/-- R85: the four faults, each with its cause and its information, and no other: a presented word is answered FAULT with
some information exactly when that is its cause. So INIT, CLEAR and WRCHR never fault. -/
def Obligations.FaultsHaveExactlyTheListedCauses : Prop :=
  (∀ (s t : State) (w : Word) (info : FaultInfo), s.Inv → runCommand w s = .next t →
    (t.reply = some (.fault info) ↔ FaultCause s w info)) ∧
  ∀ (s t : State) (i : Instr), (i = .clear ∨ (∃ v, i = .init v) ∨ ∃ ch, i = .wrchr ch) → exec i s = .next t →
    t.answeredFault = false

/-- R86: a command that faults changes its `FAULT` bit and the result, nothing else. -/
def Obligations.FaultChangesOnlyItsBit : Prop :=
  ∀ (s t : State) (w : Word) (info : FaultInfo), runCommand w s = .next t → t.reply = some (.fault info) →
    t = { s with faults := s.faults ||| info.kind.flag, reply := some (.fault info) }

/-- R21: the bit of each kind; a fault sets its bit; no command clears a bit, and hardware reset clears them all. -/
def Obligations.FaultBitsAreSticky : Prop :=
  (∀ k, (FaultKind.flag .illegal).getLsbD k = decide (k = 0) ∧ (FaultKind.flag .notInit).getLsbD k = decide (k = 1) ∧
    (FaultKind.flag .cursorRange).getLsbD k = decide (k = 2) ∧ (FaultKind.flag .fbOob).getLsbD k = decide (k = 3)) ∧
  (∀ (s t : State) (w : Word), runCommand w s = .next t →
    (∀ k, s.faults.getLsbD k = true → t.faults.getLsbD k = true) ∧
    (∀ info, t.reply = some (.fault info) → t.faults = s.faults ||| info.kind.flag) ∧
    (t.answeredFault = false → t.faults = s.faults)) ∧
  ∀ (s t : State) (rest : List HostEvent), s.host = .reset :: rest → step s = .next t → t.faults = 0#4

/-- 60_exceptions.md section 2 (R87): after a fault the TFC runs every command by its rule: what `FAULT` holds changes
nothing a command does. -/
def Obligations.FaultBitsNeverChangeACommand : Prop :=
  ∀ (s t : State) (i : Instr) (f : BitVec 4), exec i s = .next t →
    ∃ t', exec i { s with faults := f } = .next t' ∧ { t' with faults := 0#4 } = { t with faults := 0#4 }

/-- R46: the three results, their encoding, and when each is returned. -/
def Obligations.ResultsAndTheirCodes : Prop :=
  Reply.ok.code = 0b00#2 ∧ Reply.fail.code = 0b01#2 ∧ (∀ info, (Reply.fault info).code = 0b10#2) ∧
  (∀ r : Reply, r.code ≠ 0b11#2) ∧
  ∀ (s t : State) (w : Word), runCommand w s = .next t →
    ∃ r, t.reply = some r ∧ (r = .ok → t.fail = false) ∧ (r = .fail → t.fail = true) ∧
      (∀ info, r = .fault info → t.faults &&& info.kind.flag = info.kind.flag)

/-- R24: every bit of the STATUS word and of the CURSOR word. -/
def Obligations.ViewsShowTheRegisters : Prop :=
  ∀ s : State,
    s.statusWord.getLsbD 0 = s.fail ∧ s.statusWord.getLsbD 1 = s.inited ∧
    (s.statusWord.getLsbD 2 = true ↔ s.vsrc = .external) ∧ s.statusWord.getLsbD 3 = false ∧
    (∀ k, k < 4 → s.statusWord.getLsbD (4 + k) = s.faults.getLsbD k) ∧
    (∀ k, 8 ≤ k → s.statusWord.getLsbD k = false) ∧
    (∀ k, k < 11 → s.cursorWord.getLsbD k = s.cur.getLsbD k) ∧ (∀ k, 11 ≤ k → s.cursorWord.getLsbD k = false)

/-- 20_memory.md section 1 (R31): every bus write goes to the command or the data register of the one device. -/
def Obligations.BusWritesUseTheTwoRegisters : Prop :=
  ∀ (c : Config) (b : Byte) (ack : Bool) (t : Nat),
    Event.busWrite c (.cmd b ack) = some (c.devAddr, c.regCmd, b) ∧
    Event.busWrite c (.data b ack) = some (c.devAddr, c.regData, b) ∧ Event.busWrite c (.wait t) = none

/-- R108: how many command bytes, data bytes and waits each command that completes adds to the log, and the totals for
the values of the test configuration TC (R9) and the default `INIT_SEQ` (R59). -/
def Obligations.WriteCountsPerCommand : Prop :=
  (∀ (s t : State) (i : Instr), s.Inv → exec i s = .next t → t.answeredFault = false →
    ∃ es, t.log = s.log ++ es ∧
      match i with
      | .init v =>
        es.countP Event.isCmd = (s.cfg.initSteps.bytes v).length + 5 + 3 * s.cfg.pages * s.cfg.charColumns ∧
        es.countP Event.isData = s.cfg.gw * s.cfg.pages * s.cfg.charColumns ∧ es.countP Event.isWait = 2
      | .clear =>
        es.countP Event.isCmd = 5 + 3 * s.cfg.pages * s.cfg.charColumns ∧
        es.countP Event.isData = s.cfg.gw * s.cfg.pages * s.cfg.charColumns ∧ es.countP Event.isWait = 0
      | .setcur _ _ => es.countP Event.isCmd = 3 ∧ es.countP Event.isData = 0 ∧ es.countP Event.isWait = 0
      | .wrchr ch =>
        es.countP Event.isCmd = 0 ∧ (GlyphCode s.cfg ch → es.countP Event.isData = s.cfg.gw) ∧
        (¬ GlyphCode s.cfg ch → es.countP Event.isData = 0) ∧ es.countP Event.isWait = 0
      | .prchr _ => es = []
      | .flush => es.countP Event.isCmd = 6 ∧ es.countP Event.isData = s.cfg.len ∧ es.countP Event.isWait = 0) ∧
  ∀ (c : Config) (v : VSource), c.w = 128 → c.pages = 8 → c.gw = 6 → c.charColumns = 16 →
    c.initSteps = defaultInitSteps →
      (c.initSteps.bytes v).length = 22 ∧
      (c.initSteps.bytes v).length + 5 + 3 * c.pages * c.charColumns + c.gw * c.pages * c.charColumns = 1179 ∧
      5 + 3 * c.pages * c.charColumns + c.gw * c.pages * c.charColumns = 1157 ∧ 6 + c.len = 1030

/-! ## Whole-machine rules -/

/-- Every step keeps the invariant: the memory stays canonical and inside `0 .. LEN − 1`, it is full in a session, `CUR`
stays in `0 .. LEN`, the configuration stays inside the spec. -/
def Obligations.StepKeepsTheInvariant : Prop :=
  ∀ s t : State, s.Inv → step s = .next t → t.Inv

/-- 20_memory.md section 2 (R36): from every state that meets the invariant every command runs to completion and is
answered; only an overlapping command is refused. -/
def Obligations.EveryCommandIsAnswered : Prop :=
  (∀ (s : State) (i : Instr), s.Inv → ∃ t, exec i s = .next t ∧ t.reply ≠ none) ∧
  ∀ s : State, s.Inv → (∀ w rest, s.host ≠ .overlap w :: rest) → ∃ t, step s = .next t

/-- R17: `INITED` is set by INIT, whatever its acknowledgements were; nothing clears it but reset. -/
def Obligations.SessionBeginsWithInitAndEndsWithReset : Prop :=
  (∀ (s t : State) (w : Word), runCommand w s = .next t →
    (t.inited = true ↔ s.inited = true ∨ ∃ v, decode w = .ok (.init v))) ∧
  ∀ s t : State, step s = .next t → s.inited = true → t.inited = false → ∃ rest, s.host = .reset :: rest

/-- 10_state.md section 4 (R16): `VSRC` is written by INIT, from its operand, and by no other command. -/
def Obligations.OnlyInitWritesTheVoltageSource : Prop :=
  ∀ (s t : State) (w : Word), runCommand w s = .next t →
    (∀ v, decode w = .ok (.init v) → t.vsrc = v) ∧ ((∀ v, decode w ≠ .ok (.init v)) → t.vsrc = s.vsrc)

/-- R22: the glyph ROM holds `GLYPH_COUNT` glyphs of `GW` bytes, glyph 0 is zero, and nothing writes it. Nor do the
parameters change. -/
def Obligations.GlyphRomNeverChanges : Prop :=
  ∀ s t : State, step s = .next t →
    t.rom = s.rom ∧ t.cfg = s.cfg ∧ s.rom.length = s.cfg.glyphCount * s.cfg.gw ∧
      ∀ i, i < s.cfg.gw → s.rom[i]? = some 0#8

/-- 10_state.md section 3 (R15): only INIT and PRCHR write `CUR`; PRCHR moves it back only across a Line Scroll: a
newline in SCROLL mode or from the last row, which ends at the start of the last row, or a glyph from a full buffer, which
ends beyond it. There every byte outside the glyph reads as the Line Scroll leaves it. -/
def Obligations.CursorMovesForwardExceptAcrossAScroll : Prop :=
  ∀ (s t : State) (w : Word), s.Inv → runCommand w s = .next t →
    (∀ v, decode w = .ok (.init v) → t.cur = 0#11) ∧
    ((∀ v, decode w ≠ .ok (.init v)) → (∀ ch, decode w ≠ .ok (.prchr ch)) → t.cur = s.cur) ∧
    ∀ ch, decode w = .ok (.prchr ch) → s.cur.toNat ≤ t.cur.toNat ∨
      (ch = s.cfg.nlCode ∧
        (s.cfg.newlineMode = .scroll ∨ s.cfg.len / s.cfg.rowb ≤ s.cur.toNat / s.cfg.rowb + 1) ∧
        t.cur.toNat = s.cfg.len - s.cfg.rowb ∧ ∀ a, t.fb.read a = scrolledRead s a) ∨
      (ch ≠ s.cfg.nlCode ∧ s.cfg.len - s.cfg.ovfMargin ≤ s.cur.toNat ∧
        s.cfg.len - s.cfg.rowb + s.cfg.gw < t.cur.toNat ∧
        ∀ a, a < t.cur.toNat - s.cfg.gw ∨ t.cur.toNat ≤ a → t.fb.read a = scrolledRead s a)

/-- 43_buffered_print.md section 4 (R78, R79): in TC, with either newline mode, `CUR` stays on the grid of row starts and
glyph slots, below `LEN`, and FB_OOB is never raised. -/
def Obligations.TestLayoutKeepsTheCursorOnTheGrid : Prop :=
  ∀ s t : State, s.Inv → TestLayout s.cfg → OnGrid s.cur.toNat → step s = .next t →
    OnGrid t.cur.toNat ∧ t.cur.toNat ≤ 1022 ∧ (s.faults.getLsbD 3 = false → t.faults.getLsbD 3 = false)
end

