-- ==== Sys2Proof/Laws/Memory.lean ====
section
/-! SUPPORT. The laws of the framebuffer memory: read after write, other addresses untouched, canonical form kept. -/

namespace Sys2Proof.Machine.Memory

@[simp] theorem read_nil (a : Nat) : read [] a = none := rfl

@[simp] theorem read_cons (k : Nat) (v : Byte) (m : Memory) (a : Nat) :
    read ((k, v) :: m) a = if k = a then some v else read m a := rfl

theorem read_append (m n : Memory) (a : Nat) : read (m ++ n) a = (read m a).or (read n a) := by
  induction m with
  | nil => rfl
  | cons c m ih =>
    obtain ⟨k, v⟩ := c
    by_cases h : k = a <;> simp [h, ih]

/-- Keeping the cells of some addresses keeps what those addresses read as. -/
theorem read_filter (m : Memory) (p : Nat → Bool) (a : Nat) :
    read (m.filter fun c => p c.1) a = if p a then read m a else none := by
  induction m with
  | nil => simp
  | cons c m ih =>
    obtain ⟨k, v⟩ := c
    by_cases hk : p k
    · by_cases h : k = a
      · subst h; simp [hk]
      · simp [hk, h, ih]
    · by_cases h : k = a
      · subst h; simp [hk, ih]
      · simp [hk, h, ih]

theorem read_cells (a : Nat) (bs : List Byte) (i : Nat) :
    read (cells a bs) i = if a ≤ i then bs[i - a]? else none := by
  induction bs generalizing a with
  | nil => simp [cells]
  | cons b bs ih =>
    simp only [cells, read_cons, ih]
    by_cases h : a = i
    · subst h; simp
    · by_cases h1 : a ≤ i
      · obtain ⟨d, rfl⟩ : ∃ d, i = a + 1 + d := ⟨i - (a + 1), by omega⟩
        have e : a + 1 + d - a = d + 1 := by omega
        simp [h, h1, e]
      · have h2 : ¬ a + 1 ≤ i := by omega
        simp [h, h1, h2]

/-- What every address reads as after a write. -/
theorem read_writeBlock (m : Memory) (a : Nat) (bs : List Byte) (i : Nat) :
    read (writeBlock m a bs) i = if a ≤ i ∧ i < a + bs.length then bs[i - a]? else read m i := by
  simp only [writeBlock, read_append, read_cells]
  rw [read_filter m (fun k => decide (k < a)), read_filter m (fun k => decide (a + bs.length ≤ k))]
  by_cases h1 : a ≤ i
  · by_cases h2 : i < a + bs.length
    · have h3 : ¬ i < a := by omega
      have h4 : ¬ a + bs.length ≤ i := by omega
      simp only [h1, h2, h3, h4, decide_false, Bool.false_eq_true, if_false, if_true, and_self, Option.none_or,
        Option.or_none]
    · have h3 : ¬ i < a := by omega
      have h4 : a + bs.length ≤ i := by omega
      have h5 : bs.length ≤ i - a := by omega
      simp [h1, h2, h3, h4, List.getElem?_eq_none h5]
  · have h3 : i < a := by omega
    have h4 : ¬ a + bs.length ≤ i := by omega
    simp [h1, h3, h4]

theorem read_writeBlock_inside (m : Memory) (a : Nat) (bs : List Byte) (j : Nat) (h : j < bs.length) :
    read (writeBlock m a bs) (a + j) = some bs[j] := by
  rw [read_writeBlock, if_pos ⟨by omega, by omega⟩]
  simp [h]

theorem read_writeBlock_outside (m : Memory) (a : Nat) (bs : List Byte) (i : Nat)
    (h : i < a ∨ a + bs.length ≤ i) : read (writeBlock m a bs) i = read m i := by
  rw [read_writeBlock, if_neg (by omega)]

/-- A block read gives exactly the bytes that hold a value. -/
theorem readBlock_eq_some {m : Memory} {a n : Nat} {bs : List Byte} :
    readBlock m a n = some bs ↔ bs.length = n ∧ ∀ i, i < n → read m (a + i) = bs[i]? := by
  induction n generalizing a bs with
  | zero =>
    simp only [readBlock, Option.some.injEq]
    constructor
    · rintro rfl; simp
    · rintro ⟨h, -⟩; exact (List.eq_nil_of_length_eq_zero h).symm
  | succ n ih =>
    constructor
    · intro h
      simp only [readBlock] at h
      cases hb : read m a with
      | none => simp [hb] at h
      | some b =>
        cases hbs : readBlock m (a + 1) n with
        | none => simp [hb, hbs] at h
        | some bs' =>
          simp only [hb, hbs, Option.some.injEq] at h
          subst h
          obtain ⟨hl, hr⟩ := ih.mp hbs
          refine ⟨by simp [hl], fun i hi => ?_⟩
          cases i with
          | zero => simpa using hb
          | succ i => simpa [show a + (i + 1) = a + 1 + i by omega] using hr i (by omega)
    · rintro ⟨hl, hr⟩
      cases bs with
      | nil => simp at hl
      | cons b bs =>
        have h0 : read m a = some b := by simpa using hr 0 (by omega)
        have h1 : readBlock m (a + 1) n = some bs :=
          ih.mpr ⟨by simpa using hl, fun i hi => by
            simpa [show a + (i + 1) = a + 1 + i by omega] using hr (i + 1) (by omega)⟩
        simp [readBlock, h0, h1]

/-! ### The canonical form -/

theorem risingFrom_mono {lo lo' : Nat} {m : Memory} (hle : lo' ≤ lo) (h : risingFrom lo m = true) :
    risingFrom lo' m = true := by
  cases m with
  | nil => rfl
  | cons c m =>
    obtain ⟨k, v⟩ := c
    simp only [risingFrom, Bool.and_eq_true, decide_eq_true_eq] at h ⊢
    exact ⟨by omega, h.2⟩

theorem risingFrom_filter {lo : Nat} {m : Memory} (p : Nat → Bool) (h : risingFrom lo m = true) :
    risingFrom lo (m.filter fun c => p c.1) = true := by
  induction m generalizing lo with
  | nil => rfl
  | cons c m ih =>
    obtain ⟨k, v⟩ := c
    simp only [risingFrom, Bool.and_eq_true, decide_eq_true_eq] at h
    by_cases hk : p k
    · simp only [List.filter_cons, hk, if_true, risingFrom, Bool.and_eq_true, decide_eq_true_eq]
      exact ⟨h.1, ih h.2⟩
    · simp only [List.filter_cons, hk, Bool.false_eq_true, if_false]
      exact risingFrom_mono (by omega) (ih h.2)

/-- Cells that rise from `lo` and stay below `hi`, then cells that rise from `hi`, rise from `lo`. -/
theorem risingFrom_append {lo hi : Nat} {m n : Memory} (hm : risingFrom lo m = true)
    (hb : ∀ c ∈ m, c.1 < hi) (hn : risingFrom hi n = true) (hlo : lo ≤ hi) : risingFrom lo (m ++ n) = true := by
  induction m generalizing lo with
  | nil => exact risingFrom_mono hlo hn
  | cons c m ih =>
    obtain ⟨k, v⟩ := c
    simp only [risingFrom, Bool.and_eq_true, decide_eq_true_eq, List.cons_append] at hm ⊢
    have hk : k < hi := hb (k, v) (by simp)
    exact ⟨hm.1, ih hm.2 (fun c hc => hb c (by simp [hc])) (by omega)⟩

theorem risingFrom_cells (a : Nat) (bs : List Byte) : risingFrom a (cells a bs) = true := by
  induction bs generalizing a with
  | nil => rfl
  | cons b bs ih => simp [cells, risingFrom, ih]

theorem mem_cells {a : Nat} {bs : List Byte} {c : Host.Cell} (h : c ∈ cells a bs) :
    a ≤ c.1 ∧ c.1 < a + bs.length := by
  induction bs generalizing a with
  | nil => simp [cells] at h
  | cons b bs ih =>
    simp only [cells, List.mem_cons] at h
    rcases h with rfl | h
    · simp
    · have := ih h
      simp only [List.length_cons]
      omega

/-- A filtered list whose kept addresses are all `hi` or more rises from `hi`. -/
theorem risingFrom_filter_ge {lo hi : Nat} {m : Memory} (h : risingFrom lo m = true) :
    risingFrom hi (m.filter fun c => decide (hi ≤ c.1)) = true := by
  induction m generalizing lo with
  | nil => rfl
  | cons c m ih =>
    obtain ⟨k, v⟩ := c
    simp only [risingFrom, Bool.and_eq_true, decide_eq_true_eq] at h
    by_cases hk : hi ≤ k
    · simp only [List.filter_cons, hk, decide_true, if_true, risingFrom, Bool.and_eq_true, true_and]
      exact risingFrom_filter (fun k => decide (hi ≤ k)) h.2
    · simp only [List.filter_cons, hk, decide_false, Bool.false_eq_true, if_false]
      exact ih h.2

/-- Every write keeps the canonical form. -/
theorem wf_writeBlock {m : Memory} (a : Nat) (bs : List Byte) (h : m.wf = true) : wf (writeBlock m a bs) = true := by
  unfold wf at h ⊢
  unfold writeBlock
  rw [List.append_assoc]
  refine risingFrom_append (hi := a) (risingFrom_filter (fun k => decide (k < a)) h) ?_ ?_ (by omega)
  · intro c hc; simpa using (List.mem_filter.mp hc).2
  · refine risingFrom_append (hi := a + bs.length) (risingFrom_cells a bs) ?_ (risingFrom_filter_ge h) (by omega)
    intro c hc; exact (mem_cells hc).2

@[simp] theorem wf_nil : wf [] = true := rfl

theorem inRange_writeBlock {m : Memory} {a n : Nat} {bs : List Byte} (h : ∀ c ∈ m, c.1 < n)
    (hw : a + bs.length ≤ n) : ∀ c ∈ writeBlock m a bs, c.1 < n := by
  intro c hc
  simp only [writeBlock, List.mem_append, List.mem_filter] at hc
  rcases hc with (hc | hc) | hc
  · exact h c hc.1
  · have := mem_cells hc; omega
  · exact h c hc.1

theorem cells_keys (a : Nat) (bs : List Byte) : (cells a bs).map Prod.fst = List.range' a bs.length := by
  induction bs generalizing a with
  | nil => rfl
  | cons b bs ih => simp [cells, ih, List.range'_succ]

/-- A write over the whole of a memory whose addresses lie below `n` leaves exactly the written cells. -/
theorem writeBlock_all {m : Memory} {bs : List Byte} (h : ∀ c ∈ m, c.1 < bs.length) :
    writeBlock m 0 bs = cells 0 bs := by
  have h1 : m.filter (fun c => decide (c.1 < 0)) = [] := by simp
  have h2 : m.filter (fun c => decide (0 + bs.length ≤ c.1)) = [] := by
    rw [List.filter_eq_nil_iff]
    intro c hc
    have := h c hc
    simp only [decide_eq_true_eq]; omega
  rw [writeBlock, h1, h2]; simp

/-- A memory that lists exactly the addresses below `n` reads as a value at each of them. -/
theorem read_of_keys {m : Memory} {a n : Nat} (h : m.map Prod.fst = List.range' a n) {i : Nat} (hi : i < n) :
    read m (a + i) = (m.map Prod.snd)[i]? := by
  induction m generalizing a n i with
  | nil =>
    have := congrArg List.length h
    simp at this; omega
  | cons c m ih =>
    obtain ⟨k, v⟩ := c
    cases n with
    | zero => omega
    | succ n =>
      simp only [List.map_cons, List.range'_succ, List.cons.injEq] at h
      obtain ⟨rfl, h⟩ := h
      cases i with
      | zero => simp
      | succ i =>
        have := ih h (i := i) (by omega)
        have hne : k ≠ k + (i + 1) := by omega
        simpa [hne, show k + 1 + i = k + (i + 1) by omega] using this

/-- In a full memory a block read of everything gives every byte, in order. -/
theorem readBlock_of_keys {m : Memory} {n : Nat} (h : m.map Prod.fst = List.range n) :
    readBlock m 0 n = some (m.map Prod.snd) := by
  rw [readBlock_eq_some]
  have hl : m.length = n := by simpa using congrArg List.length h
  refine ⟨by simpa using hl, fun i hi => ?_⟩
  exact read_of_keys (a := 0) (n := n) (by rw [h, List.range_eq_range']) hi

/-- The addresses a canonical memory lists are the addresses that read as a value. -/
theorem keys_writeBlock {m : Memory} {a n : Nat} {bs : List Byte} (h : m.map Prod.fst = List.range n)
    (hw : a + bs.length ≤ n) : (writeBlock m a bs).map Prod.fst = List.range n := by
  have f1 : ∀ (p : Nat → Bool), (m.filter fun c => p c.1).map Prod.fst = (List.range n).filter p := by
    intro p
    rw [← h, List.filter_map]
    rfl
  rw [writeBlock, List.map_append, List.map_append, f1 (fun k => decide (k < a)),
    f1 (fun k => decide (a + bs.length ≤ k)), cells_keys]
  have e : List.range n = List.range' 0 a ++ List.range' a bs.length ++
      List.range' (a + bs.length) (n - (a + bs.length)) := by
    rw [List.range_eq_range']
    have h1 : n = a + (bs.length + (n - (a + bs.length))) := by omega
    conv_lhs => rw [h1]
    rw [← List.range'_append_1, ← List.range'_append_1]
    simp
  rw [e, List.filter_append, List.filter_append, List.filter_append, List.filter_append]
  have g1 : (List.range' 0 a).filter (fun k => decide (k < a)) = List.range' 0 a := by
    rw [List.filter_eq_self]; intro x hx; simp [List.mem_range'_1] at hx ⊢; omega
  have g2 : (List.range' a bs.length).filter (fun k => decide (k < a)) = [] := by
    rw [List.filter_eq_nil_iff]; intro x hx; simp [List.mem_range'_1] at hx ⊢; omega
  have g3 : (List.range' (a + bs.length) (n - (a + bs.length))).filter (fun k => decide (k < a)) = [] := by
    rw [List.filter_eq_nil_iff]; intro x hx; simp [List.mem_range'_1] at hx ⊢; omega
  have g4 : (List.range' 0 a).filter (fun k => decide (a + bs.length ≤ k)) = [] := by
    rw [List.filter_eq_nil_iff]; intro x hx; simp [List.mem_range'_1] at hx ⊢; omega
  have g5 : (List.range' a bs.length).filter (fun k => decide (a + bs.length ≤ k)) = [] := by
    rw [List.filter_eq_nil_iff]; intro x hx; simp [List.mem_range'_1] at hx ⊢; omega
  have g6 : (List.range' (a + bs.length) (n - (a + bs.length))).filter (fun k => decide (a + bs.length ≤ k)) =
      List.range' (a + bs.length) (n - (a + bs.length)) := by
    rw [List.filter_eq_self]; intro x hx; simp [List.mem_range'_1] at hx ⊢; omega
  rw [g1, g2, g3, g4, g5, g6]
  simp

end Sys2Proof.Machine.Memory
end

