-- ==== Sys2Proof/Laws/State.lean ====
section
/-! SUPPORT. What each named update of the state leaves in each field, so that no proof unfolds a record update. -/

namespace Sys2Proof.Machine

variable (s : State)

/-! ### `State.setFb` -/

@[simp] theorem setFb_cfg (m : Memory) : (s.setFb m).cfg = s.cfg := rfl
@[simp] theorem setFb_rom (m : Memory) : (s.setFb m).rom = s.rom := rfl
@[simp] theorem setFb_fb (m : Memory) : (s.setFb m).fb = m := rfl
@[simp] theorem setFb_cur (m : Memory) : (s.setFb m).cur = s.cur := rfl
@[simp] theorem setFb_vsrc (m : Memory) : (s.setFb m).vsrc = s.vsrc := rfl
@[simp] theorem setFb_inited (m : Memory) : (s.setFb m).inited = s.inited := rfl
@[simp] theorem setFb_fail (m : Memory) : (s.setFb m).fail = s.fail := rfl
@[simp] theorem setFb_faults (m : Memory) : (s.setFb m).faults = s.faults := rfl
@[simp] theorem setFb_log (m : Memory) : (s.setFb m).log = s.log := rfl
@[simp] theorem setFb_host (m : Memory) : (s.setFb m).host = s.host := rfl
@[simp] theorem setFb_acks (m : Memory) : (s.setFb m).acks = s.acks := rfl
@[simp] theorem setFb_draws (m : Memory) : (s.setFb m).draws = s.draws := rfl
@[simp] theorem setFb_reply (m : Memory) : (s.setFb m).reply = s.reply := rfl

/-! ### `State.setCur` -/

@[simp] theorem setCur_cfg (n : Nat) : (s.setCur n).cfg = s.cfg := rfl
@[simp] theorem setCur_rom (n : Nat) : (s.setCur n).rom = s.rom := rfl
@[simp] theorem setCur_fb (n : Nat) : (s.setCur n).fb = s.fb := rfl
@[simp] theorem setCur_cur (n : Nat) : (s.setCur n).cur = BitVec.ofNat 11 n := rfl
@[simp] theorem setCur_vsrc (n : Nat) : (s.setCur n).vsrc = s.vsrc := rfl
@[simp] theorem setCur_inited (n : Nat) : (s.setCur n).inited = s.inited := rfl
@[simp] theorem setCur_fail (n : Nat) : (s.setCur n).fail = s.fail := rfl
@[simp] theorem setCur_faults (n : Nat) : (s.setCur n).faults = s.faults := rfl
@[simp] theorem setCur_log (n : Nat) : (s.setCur n).log = s.log := rfl
@[simp] theorem setCur_host (n : Nat) : (s.setCur n).host = s.host := rfl
@[simp] theorem setCur_acks (n : Nat) : (s.setCur n).acks = s.acks := rfl
@[simp] theorem setCur_draws (n : Nat) : (s.setCur n).draws = s.draws := rfl
@[simp] theorem setCur_reply (n : Nat) : (s.setCur n).reply = s.reply := rfl

/-! ### `State.setVsrc` -/

@[simp] theorem setVsrc_cfg (v : VSource) : (s.setVsrc v).cfg = s.cfg := rfl
@[simp] theorem setVsrc_rom (v : VSource) : (s.setVsrc v).rom = s.rom := rfl
@[simp] theorem setVsrc_fb (v : VSource) : (s.setVsrc v).fb = s.fb := rfl
@[simp] theorem setVsrc_cur (v : VSource) : (s.setVsrc v).cur = s.cur := rfl
@[simp] theorem setVsrc_vsrc (v : VSource) : (s.setVsrc v).vsrc = v := rfl
@[simp] theorem setVsrc_inited (v : VSource) : (s.setVsrc v).inited = s.inited := rfl
@[simp] theorem setVsrc_fail (v : VSource) : (s.setVsrc v).fail = s.fail := rfl
@[simp] theorem setVsrc_faults (v : VSource) : (s.setVsrc v).faults = s.faults := rfl
@[simp] theorem setVsrc_log (v : VSource) : (s.setVsrc v).log = s.log := rfl
@[simp] theorem setVsrc_host (v : VSource) : (s.setVsrc v).host = s.host := rfl
@[simp] theorem setVsrc_acks (v : VSource) : (s.setVsrc v).acks = s.acks := rfl
@[simp] theorem setVsrc_draws (v : VSource) : (s.setVsrc v).draws = s.draws := rfl
@[simp] theorem setVsrc_reply (v : VSource) : (s.setVsrc v).reply = s.reply := rfl

/-! ### `State.openSession` -/

@[simp] theorem openSession_cfg : s.openSession.cfg = s.cfg := rfl
@[simp] theorem openSession_rom : s.openSession.rom = s.rom := rfl
@[simp] theorem openSession_fb : s.openSession.fb = s.fb.writeBlock 0 (List.replicate s.cfg.len 0#8) := rfl
@[simp] theorem openSession_cur : s.openSession.cur = 0#11 := rfl
@[simp] theorem openSession_vsrc : s.openSession.vsrc = s.vsrc := rfl
@[simp] theorem openSession_inited : s.openSession.inited = true := rfl
@[simp] theorem openSession_fail : s.openSession.fail = s.fail := rfl
@[simp] theorem openSession_faults : s.openSession.faults = s.faults := rfl
@[simp] theorem openSession_log : s.openSession.log = s.log := rfl
@[simp] theorem openSession_host : s.openSession.host = s.host := rfl
@[simp] theorem openSession_acks : s.openSession.acks = s.acks := rfl
@[simp] theorem openSession_draws : s.openSession.draws = s.draws := rfl
@[simp] theorem openSession_reply : s.openSession.reply = s.reply := rfl

/-! ### `State.emitAll` -/

@[simp] theorem emitAll_cfg (as : List Action) : (s.emitAll as).cfg = s.cfg := rfl
@[simp] theorem emitAll_rom (as : List Action) : (s.emitAll as).rom = s.rom := rfl
@[simp] theorem emitAll_fb (as : List Action) : (s.emitAll as).fb = s.fb := rfl
@[simp] theorem emitAll_cur (as : List Action) : (s.emitAll as).cur = s.cur := rfl
@[simp] theorem emitAll_vsrc (as : List Action) : (s.emitAll as).vsrc = s.vsrc := rfl
@[simp] theorem emitAll_inited (as : List Action) : (s.emitAll as).inited = s.inited := rfl
@[simp] theorem emitAll_fail (as : List Action) : (s.emitAll as).fail = s.fail := rfl
@[simp] theorem emitAll_faults (as : List Action) : (s.emitAll as).faults = s.faults := rfl
@[simp] theorem emitAll_log (as : List Action) : (s.emitAll as).log = s.log ++ s.answered 0 as := rfl
@[simp] theorem emitAll_host (as : List Action) : (s.emitAll as).host = s.host := rfl
@[simp] theorem emitAll_acks (as : List Action) : (s.emitAll as).acks = s.acks.drop (busWrites as) := rfl
@[simp] theorem emitAll_draws (as : List Action) : (s.emitAll as).draws = s.draws + busWrites as := rfl
@[simp] theorem emitAll_reply (as : List Action) : (s.emitAll as).reply = s.reply := rfl

/-! ### `State.finish` -/

@[simp] theorem finish_cfg (b : Bool) : (s.finish b).cfg = s.cfg := rfl
@[simp] theorem finish_rom (b : Bool) : (s.finish b).rom = s.rom := rfl
@[simp] theorem finish_fb (b : Bool) : (s.finish b).fb = s.fb := rfl
@[simp] theorem finish_cur (b : Bool) : (s.finish b).cur = s.cur := rfl
@[simp] theorem finish_vsrc (b : Bool) : (s.finish b).vsrc = s.vsrc := rfl
@[simp] theorem finish_inited (b : Bool) : (s.finish b).inited = s.inited := rfl
@[simp] theorem finish_fail (b : Bool) : (s.finish b).fail = b := rfl
@[simp] theorem finish_faults (b : Bool) : (s.finish b).faults = s.faults := rfl
@[simp] theorem finish_log (b : Bool) : (s.finish b).log = s.log := rfl
@[simp] theorem finish_host (b : Bool) : (s.finish b).host = s.host := rfl
@[simp] theorem finish_acks (b : Bool) : (s.finish b).acks = s.acks := rfl
@[simp] theorem finish_draws (b : Bool) : (s.finish b).draws = s.draws := rfl
@[simp] theorem finish_reply (b : Bool) : (s.finish b).reply = some (if b then .fail else .ok) := rfl

/-! ### `State.withFault` -/

@[simp] theorem withFault_cfg (info : FaultInfo) : (s.withFault info).cfg = s.cfg := rfl
@[simp] theorem withFault_rom (info : FaultInfo) : (s.withFault info).rom = s.rom := rfl
@[simp] theorem withFault_fb (info : FaultInfo) : (s.withFault info).fb = s.fb := rfl
@[simp] theorem withFault_cur (info : FaultInfo) : (s.withFault info).cur = s.cur := rfl
@[simp] theorem withFault_vsrc (info : FaultInfo) : (s.withFault info).vsrc = s.vsrc := rfl
@[simp] theorem withFault_inited (info : FaultInfo) : (s.withFault info).inited = s.inited := rfl
@[simp] theorem withFault_fail (info : FaultInfo) : (s.withFault info).fail = s.fail := rfl
@[simp] theorem withFault_faults (info : FaultInfo) : (s.withFault info).faults = s.faults ||| info.kind.flag := rfl
@[simp] theorem withFault_log (info : FaultInfo) : (s.withFault info).log = s.log := rfl
@[simp] theorem withFault_host (info : FaultInfo) : (s.withFault info).host = s.host := rfl
@[simp] theorem withFault_acks (info : FaultInfo) : (s.withFault info).acks = s.acks := rfl
@[simp] theorem withFault_draws (info : FaultInfo) : (s.withFault info).draws = s.draws := rfl
@[simp] theorem withFault_reply (info : FaultInfo) : (s.withFault info).reply = some (.fault info) := rfl

/-! ### `State.setHost` -/

@[simp] theorem setHost_cfg (h : List HostEvent) : (s.setHost h).cfg = s.cfg := rfl
@[simp] theorem setHost_rom (h : List HostEvent) : (s.setHost h).rom = s.rom := rfl
@[simp] theorem setHost_fb (h : List HostEvent) : (s.setHost h).fb = s.fb := rfl
@[simp] theorem setHost_cur (h : List HostEvent) : (s.setHost h).cur = s.cur := rfl
@[simp] theorem setHost_vsrc (h : List HostEvent) : (s.setHost h).vsrc = s.vsrc := rfl
@[simp] theorem setHost_inited (h : List HostEvent) : (s.setHost h).inited = s.inited := rfl
@[simp] theorem setHost_fail (h : List HostEvent) : (s.setHost h).fail = s.fail := rfl
@[simp] theorem setHost_faults (h : List HostEvent) : (s.setHost h).faults = s.faults := rfl
@[simp] theorem setHost_log (h : List HostEvent) : (s.setHost h).log = s.log := rfl
@[simp] theorem setHost_host (h : List HostEvent) : (s.setHost h).host = h := rfl
@[simp] theorem setHost_acks (h : List HostEvent) : (s.setHost h).acks = s.acks := rfl
@[simp] theorem setHost_draws (h : List HostEvent) : (s.setHost h).draws = s.draws := rfl
@[simp] theorem setHost_reply (h : List HostEvent) : (s.setHost h).reply = s.reply := rfl

/-! ### `State.hardReset` -/

@[simp] theorem hardReset_cfg : s.hardReset.cfg = s.cfg := rfl
@[simp] theorem hardReset_rom : s.hardReset.rom = s.rom := rfl
@[simp] theorem hardReset_fb : s.hardReset.fb = [] := rfl
@[simp] theorem hardReset_cur : s.hardReset.cur = 0#11 := rfl
@[simp] theorem hardReset_vsrc : s.hardReset.vsrc = .internal := rfl
@[simp] theorem hardReset_inited : s.hardReset.inited = false := rfl
@[simp] theorem hardReset_fail : s.hardReset.fail = false := rfl
@[simp] theorem hardReset_faults : s.hardReset.faults = 0#4 := rfl
@[simp] theorem hardReset_log : s.hardReset.log = [] := rfl
@[simp] theorem hardReset_host : s.hardReset.host = s.host := rfl
@[simp] theorem hardReset_acks : s.hardReset.acks = s.acks := rfl
@[simp] theorem hardReset_draws : s.hardReset.draws = s.draws := rfl
@[simp] theorem hardReset_reply : s.hardReset.reply = none := rfl

end Sys2Proof.Machine
end

