-- ==== Sys2Proof/Laws/Ops.lean ====
section
/-! SUPPORT. What each shared operation can do, said once: the bus, the glyph ROM, the framebuffer accesses, the Line
Scroll, the newline, ending a command, and one step. -/

namespace Sys2Proof.Machine

/-! ### Bus writes -/

@[simp] theorem busWrites_append (as bs : List Action) : busWrites (as ++ bs) = busWrites as + busWrites bs := by
  induction as with
  | nil => simp [busWrites]
  | cons a as ih => cases a <;> simp [busWrites, ih] <;> omega

theorem answered_append (s : State) (n : Nat) (as bs : List Action) :
    s.answered n (as ++ bs) = s.answered n as ++ s.answered (n + busWrites as) bs := by
  induction as generalizing n with
  | nil => simp [State.answered, busWrites]
  | cons a as ih => cases a <;> simp [State.answered, busWrites, ih, Nat.add_assoc, Nat.add_comm 1]

/-- Emitting sends exactly the actions, in order. -/
@[simp] theorem answered_actions (s : State) (n : Nat) (as : List Action) :
    (s.answered n as).map Event.action = as := by
  induction as generalizing n with
  | nil => rfl
  | cons a as ih => cases a <;> simp [State.answered, Event.action, ih]

@[simp] theorem answered_length (s : State) (n : Nat) (as : List Action) : (s.answered n as).length = as.length := by
  rw [← List.length_map (f := Event.action), answered_actions]

/-- The answers are the transport's, in order. -/
theorem answered_acks (s : State) (n : Nat) (as : List Action) :
    (s.answered n as).filterMap Event.ack = (List.range' n (busWrites as)).map s.ackAt := by
  induction as generalizing n with
  | nil => rfl
  | cons a as ih =>
    cases a <;> simp only [State.answered, busWrites, List.filterMap_cons, Event.ack, ih, List.range'_succ, List.map_cons]

theorem nacked_eq (e : Event) : e.nacked = (e.ack == some false) := by
  cases e with
  | cmd b a => cases a <;> rfl
  | data b a => cases a <;> rfl
  | wait t => rfl

/-- An event is determined by what it emitted and the answer it got. -/
theorem event_eq {e f : Event} (ha : e.action = f.action) (hk : e.ack = f.ack) : e = f := by
  cases e <;> cases f <;> simp_all [Event.action, Event.ack]

/-- The events of an emission are the only ones with its actions and the transport's answers. -/
theorem answered_unique {s : State} {n : Nat} {as : List Action} {es : List Event}
    (ha : es.map Event.action = as) (hk : es.filterMap Event.ack = (List.range' n (busWrites as)).map s.ackAt) :
    es = s.answered n as := by
  induction es generalizing n as with
  | nil => simp at ha; subst ha; rfl
  | cons e es ih =>
    subst ha
    cases e with
    | cmd b a =>
      simp only [List.map_cons, Event.action, busWrites, List.range'_succ, List.filterMap_cons, Event.ack,
        List.cons.injEq, State.answered] at hk ⊢
      exact ⟨by rw [hk.1], ih rfl hk.2⟩
    | data b a =>
      simp only [List.map_cons, Event.action, busWrites, List.range'_succ, List.filterMap_cons, Event.ack,
        List.cons.injEq, State.answered] at hk ⊢
      exact ⟨by rw [hk.1], ih rfl hk.2⟩
    | wait t =>
      simp only [List.map_cons, Event.action, busWrites, List.filterMap_cons, Event.ack, List.cons.injEq,
        State.answered, true_and] at hk ⊢
      exact ih rfl hk

@[simp] theorem emitAll_nil (s : State) : s.emitAll [] = s := by
  simp [State.emitAll, State.answered, busWrites]

/-- The answers after an emission are the later ones. -/
theorem ackAt_emitAll (s : State) (as : List Action) (n : Nat) :
    (s.emitAll as).ackAt n = s.ackAt (busWrites as + n) := by
  simp [State.ackAt, Nat.add_assoc]

theorem answered_emitAll (s : State) (as : List Action) (n : Nat) (bs : List Action) :
    (s.emitAll as).answered n bs = s.answered (busWrites as + n) bs := by
  induction bs generalizing n with
  | nil => rfl
  | cons b bs ih => cases b <;> simp [State.answered, ackAt_emitAll, ih, Nat.add_assoc]

/-- Emitting two lists in turn is emitting the one after the other: each write is answered before the next (R40). -/
theorem emitAll_append (s : State) (as bs : List Action) : s.emitAll (as ++ bs) = (s.emitAll as).emitAll bs := by
  have h := answered_emitAll s as 0 bs
  simp only [Nat.add_zero] at h
  simp only [State.emitAll] at h ⊢
  simp [answered_append, h, List.drop_drop, Nat.add_assoc]

theorem anyNack_append (s : State) (as bs : List Action) :
    s.anyNack (as ++ bs) = (s.anyNack as || (s.emitAll as).anyNack bs) := by
  simp [State.anyNack, answered_append, answered_emitAll]

/-- The answers depend on the transport's script and the count of answers only. -/
theorem answered_congr {s t : State} (ha : s.acks = t.acks) (hd : s.draws = t.draws) (n : Nat) (as : List Action) :
    s.answered n as = t.answered n as := by
  have hk : ∀ m, s.ackAt m = t.ackAt m := fun m => by simp [State.ackAt, ha, hd]
  induction as generalizing n with
  | nil => rfl
  | cons a as ih => cases a <;> simp [State.answered, hk, ih]

theorem anyNack_congr {s t : State} (ha : s.acks = t.acks) (hd : s.draws = t.draws) (as : List Action) :
    s.anyNack as = t.anyNack as := by
  simp only [State.anyNack, answered_congr ha hd]

/-- `fail` is the OR of the negated answers. -/
theorem anyNack_iff (s : State) (as : List Action) :
    s.anyNack as = true ↔ ∃ n, n < busWrites as ∧ s.ackAt n = false := by
  have h : (s.answered 0 as).any Event.nacked =
      ((s.answered 0 as).filterMap Event.ack).any (fun a => !a) := by
    generalize s.answered 0 as = es
    induction es with
    | nil => rfl
    | cons e es ih => cases e <;> simp [Event.nacked, Event.ack, ih]
  rw [State.anyNack, h, answered_acks, List.any_eq_true]
  simp only [List.mem_map, List.mem_range'_1]
  constructor
  · rintro ⟨_, ⟨n, hn, rfl⟩, hx⟩
    exact ⟨n, by omega, by simpa using hx⟩
  · rintro ⟨n, hn, hx⟩
    exact ⟨_, ⟨n, by omega, rfl⟩, by simp [hx]⟩

/-! ### The configuration and the glyph ROM -/

/-- What `configured` says, in the words of 00_scope.md R8 and 10_state.md R22. -/
theorem configured_iff (s : State) : s.configured = true ↔
    (s.cfg.constraints = true ∧ s.cfg.fits = true ∧ s.cfg.initSteps.valid s.cfg.selectHorizontal s.cfg.displayOn = true) ∧
      s.rom.length = s.cfg.glyphCount * s.cfg.gw ∧ (∀ b ∈ s.rom.take s.cfg.gw, b = 0#8) := by
  simp [State.configured, Config.valid, Config.romOk, and_assoc]

theorem constraints_iff (c : Config) : c.constraints = true ↔
    1 ≤ c.w ∧ 1 ≤ c.pages ∧ 1 ≤ c.gw ∧ 95 ≤ c.glyphCount ∧ c.glyphBase + c.glyphCount ≤ 256 ∧
      c.nlCode < c.glyphBase ∧ c.colStride * (c.charColumns - 1) ≤ c.w - 1 ∧ c.rowb ≤ c.len := by
  simp [Config.constraints]

theorem fits_iff (c : Config) : c.fits = true ↔
    c.len ≤ 2047 ∧ c.w ≤ 256 ∧ c.pages ≤ 256 ∧ c.pageBase.toNat + c.pages ≤ 256 ∧ 1 ≤ c.glyphPages := by
  simp [Config.fits]

/-- The ROM of a configured state holds every glyph (20_memory.md R30). -/
theorem glyph_of_configured {s : State} (h : s.configured = true) {k : Nat} (hk : k < s.cfg.glyphCount) :
    s.glyph k = .ok ((s.rom.drop (k * s.cfg.gw)).take s.cfg.gw) ∧
      ((s.rom.drop (k * s.cfg.gw)).take s.cfg.gw).length = s.cfg.gw := by
  have hl := ((configured_iff s).mp h).2.1
  have hle : k * s.cfg.gw + s.cfg.gw ≤ s.cfg.glyphCount * s.cfg.gw := by
    have := Nat.mul_le_mul_right s.cfg.gw (Nat.succ_le_of_lt hk)
    simpa [Nat.succ_mul] using this
  have hlen : ((s.rom.drop (k * s.cfg.gw)).take s.cfg.gw).length = s.cfg.gw := by
    rw [List.length_take, List.length_drop, hl]; omega
  exact ⟨by rw [State.glyph, if_pos hlen], hlen⟩

/-- The space glyph of a configured state is `GW` zero bytes (10_state.md R22). -/
theorem space_of_configured {s : State} (h : s.configured = true) :
    s.glyph 0 = .ok (List.replicate s.cfg.gw 0#8) := by
  have hc := (configured_iff s).mp h
  have hcnt : 0 < s.cfg.glyphCount := by have := (constraints_iff _).mp hc.1.1; omega
  obtain ⟨he, hl⟩ := glyph_of_configured h hcnt
  rw [he]
  simp only [Nat.zero_mul, List.drop_zero] at hl ⊢
  exact congrArg _ (List.eq_replicate_iff.mpr ⟨hl, hc.2.2⟩)

/-! ### Framebuffer accesses -/

theorem writeFb_inside {s : State} {a : Nat} {bs : List Byte} (h : a + bs.length ≤ s.cfg.len) :
    s.writeFb a bs = .ok (s.setFb (s.fb.writeBlock a bs)) := if_pos h

/-- In a session the whole buffer reads as its bytes in order. -/
theorem readFb_all {s : State} (h : s.fb.map Prod.fst = List.range s.cfg.len) :
    s.readFb 0 s.cfg.len = .ok (s.fb.map Prod.snd) := by
  simp [State.readFb, Memory.readBlock_of_keys h]

theorem scrolledBytes_length {c : Config} {old : List Byte} (ho : old.length = c.len) (hr : c.rowb ≤ c.len) :
    (scrolledBytes c old).length = c.len := by
  unfold scrolledBytes
  cases c.scrollFill <;> (simp [ho]; try omega)

/-- The Line Scroll of a session (43_buffered_print.md R75): the whole buffer rewritten, `CUR` at the last row. -/
theorem lineScroll_eq {s : State} (hf : s.fb.map Prod.fst = List.range s.cfg.len) (hr : s.cfg.rowb ≤ s.cfg.len) :
    lineScroll s = .ok ((s.setFb (s.fb.writeBlock 0 (scrolledBytes s.cfg (s.fb.map Prod.snd)))).setCur
      (s.cfg.len - s.cfg.rowb)) := by
  have hl : (s.fb.map Prod.snd).length = s.cfg.len := by simpa using congrArg List.length hf
  have hw := scrolledBytes_length hl hr
  simp only [lineScroll, readFb_all hf]
  rw [writeFb_inside (by omega)]

/-- Whatever the buffer holds, a Line Scroll that succeeds leaves every other field as it was. -/
theorem lineScroll_frame {s t : State} (h : lineScroll s = .ok t) :
    ∃ m, t = (s.setFb m).setCur (s.cfg.len - s.cfg.rowb) := by
  unfold lineScroll at h
  split at h
  · cases h
  · split at h
    · cases h
    · rename_i s' hs
      unfold State.writeFb at hs
      split at hs
      · cases hs; cases h; exact ⟨_, rfl⟩
      · cases hs

/-- Whatever it does, a newline that succeeds leaves every field but `FB` and `CUR` as it was. -/
theorem newline_frame {s t : State} (h : newline s = .ok t) : ∃ m n, t = (s.setFb m).setCur n := by
  unfold newline at h
  split at h
  · simp only at h
    split at h
    · obtain ⟨m, rfl⟩ := lineScroll_frame h; exact ⟨m, _, rfl⟩
    · cases h; exact ⟨s.fb, _, rfl⟩
  · obtain ⟨m, rfl⟩ := lineScroll_frame h; exact ⟨m, _, rfl⟩

/-- The overflow check of PRCHR scrolls or does nothing. -/
theorem scrollIfFull_cases {s t : State} (h : scrollIfFull s = .ok t) :
    (s.cur.toNat < s.cfg.len - s.cfg.ovfMargin ∧ t = s) ∨
      (s.cfg.len - s.cfg.ovfMargin ≤ s.cur.toNat ∧ lineScroll s = .ok t) := by
  unfold scrollIfFull at h
  split at h
  · exact .inr ⟨‹_›, h⟩
  · cases h; exact .inl ⟨by omega, rfl⟩

/-! ### Ends of a command -/

@[simp] theorem orStop_ok {α : Type} (a : α) (k : α → Host.Outcome State Fault Refusal) :
    orStop (.ok a) k = k a := rfl

@[simp] theorem orStop_error {α : Type} (e : Fault) (k : α → Host.Outcome State Fault Refusal) :
    orStop (.error e) k = .fault e := rfl

theorem orStop_next {α : Type} {r : Except Fault α} {k : α → Host.Outcome State Fault Refusal} {t : State}
    (h : orStop r k = .next t) : ∃ a, r = .ok a ∧ k a = .next t := by
  cases r with
  | ok a => exact ⟨a, rfl, h⟩
  | error e => cases h

/-! ### What a command can do -/

/-- PRCHR of a code with a glyph, when it goes on: it raises FB_OOB, or it writes `FB`, `CUR`, `FAIL` and the reply. -/
theorem printGlyph_next {ch : Nat} {s t : State} (h : printGlyph ch s = .next t) :
    (∃ p, t = s.withFault (.fbOob p)) ∨ (∃ m n, t = ((s.setFb m).setCur n).finish false) := by
  obtain ⟨s1, h1, h2⟩ := orStop_next h
  have hs1 : ∃ m n, s1 = (s.setFb m).setCur n := by
    rcases scrollIfFull_cases h1 with ⟨-, rfl⟩ | ⟨-, hl⟩
    · exact ⟨s1.fb, s1.cur.toNat, by simp [State.setFb, State.setCur]⟩
    · obtain ⟨m, rfl⟩ := lineScroll_frame hl; exact ⟨m, _, rfl⟩
  obtain ⟨m, n, rfl⟩ := hs1
  simp only at h2
  split at h2
  · cases h2; exact .inl ⟨_, rfl⟩
  · obtain ⟨g, -, h3⟩ := orStop_next h2
    obtain ⟨s2, h4, h5⟩ := orStop_next h3
    unfold State.writeFb at h4
    split at h4
    · cases h4; cases h5; exact .inr ⟨_, _, rfl⟩
    · cases h4

/-- Everything PRCHR can do when it goes on: a fault's report, or new `FB` and `CUR` with `FAIL` 0 and the reply `OK`. -/
theorem execPrchr_next {ch : Nat} {s t : State} (h : execPrchr ch s = .next t) :
    (s.inited = false ∧ t = s.withFault (.notInitPrchr ch)) ∨
      (s.inited = true ∧ ∃ p, t = s.withFault (.fbOob p)) ∨
      (s.inited = true ∧ ∃ m n, t = ((s.setFb m).setCur n).finish false) := by
  unfold execPrchr at h
  split at h
  · cases h; exact .inl ⟨‹_›, rfl⟩
  · have hi : s.inited = true := by simpa using ‹¬ s.inited = false›
    split at h
    · obtain ⟨s1, h1, h2⟩ := orStop_next h
      obtain ⟨m, n, rfl⟩ := newline_frame h1
      cases h2
      exact .inr (.inr ⟨hi, m, n, rfl⟩)
    · split at h
      · rcases printGlyph_next h with h | h
        · exact .inr (.inl ⟨hi, h⟩)
        · exact .inr (.inr ⟨hi, h⟩)
      · cases h
        exact .inr (.inr ⟨hi, s.fb, s.cur.toNat, by simp [State.setFb, State.setCur]⟩)

/-- Everything SETCUR can do. -/
theorem execSetcur_next {row col : Nat} {s t : State} (h : execSetcur row col s = .next t) :
    t = s.withFault (.cursorRange row col) ∨ ∃ as, t = (s.emitAll as).finish (s.anyNack as) := by
  unfold execSetcur at h
  split at h <;> cases h
  · exact .inl rfl
  · exact .inr ⟨_, rfl⟩

/-- Everything CLEAR can do. -/
theorem execClear_next {s t : State} (h : execClear s = .next t) :
    ∃ as, t = (s.emitAll as).finish (s.anyNack as) := by
  obtain ⟨g, -, h⟩ := orStop_next h
  cases h; exact ⟨_, rfl⟩

/-- Everything WRCHR can do. -/
theorem execWrchr_next {ch : Nat} {s t : State} (h : execWrchr ch s = .next t) :
    ∃ as, t = (s.emitAll as).finish (s.anyNack as) := by
  unfold execWrchr at h
  split at h
  · obtain ⟨g, -, h⟩ := orStop_next h
    cases h; exact ⟨_, rfl⟩
  · cases h; exact ⟨[], by simp [State.anyNack, State.answered]⟩

/-- Everything FLUSH can do. -/
theorem execFlush_next {s t : State} (h : execFlush s = .next t) :
    (s.inited = false ∧ t = s.withFault .notInitFlush) ∨
      (s.inited = true ∧ ∃ as, t = (s.emitAll as).finish (s.anyNack as)) := by
  unfold execFlush at h
  split at h
  · cases h; exact .inl ⟨‹_›, rfl⟩
  · obtain ⟨g, -, h⟩ := orStop_next h
    cases h; exact .inr ⟨by simpa using ‹¬ s.inited = false›, _, rfl⟩

/-- INIT's aggregate is the OR over the configuration sequence and its CLEAR (41_init.md R55). -/
theorem anyNack_init (s : State) (v : VSource) (as bs : List Action) :
    ((s.setVsrc v).anyNack as || (((s.setVsrc v).emitAll as).openSession).anyNack bs) = s.anyNack (as ++ bs) := by
  rw [anyNack_append, anyNack_congr (s := s.setVsrc v) (t := s) (by simp) (by simp),
    anyNack_congr (s := ((s.setVsrc v).emitAll as).openSession) (t := s.emitAll as) (by simp) (by simp)]

/-- Everything INIT can do. -/
theorem execInit_next {v : VSource} {s t : State} (h : execInit v s = .next t) :
    ∃ as bs, t = ((((s.setVsrc v).emitAll as).openSession).emitAll bs).finish (s.anyNack (as ++ bs)) := by
  obtain ⟨g, -, h⟩ := orStop_next h
  simp only [anyNack_init, complete, Host.Outcome.next.injEq] at h
  exact ⟨_, _, h.symm⟩

/-- One step of a machine that goes on: it idles, runs a command, or is reset. -/
theorem step_next {s t : State} (h : step s = .next t) :
    s.configured = true ∧
      ((s.host = [] ∧ t = s) ∨
        (∃ w rest, s.host = .command w :: rest ∧ runCommand w (s.setHost rest) = .next t) ∨
        (∃ rest, s.host = .reset :: rest ∧ t = (s.setHost rest).hardReset)) := by
  unfold step serveConfigured at h
  split at h
  · refine ⟨‹_›, ?_⟩
    unfold serve at h
    split at h
    · cases h; exact .inl ⟨‹_›, rfl⟩
    · exact .inr (.inl ⟨_, _, ‹_›, h⟩)
    · cases h
    · cases h; exact .inr (.inr ⟨_, ‹_›, rfl⟩)
  · cases h

/-- A presented word goes on as an illegal word or as the command it decodes to. -/
theorem runCommand_next {w : Word} {s t : State} (h : runCommand w s = .next t) :
    (∃ i, decode w = .ok i ∧ exec i s = .next t) ∨
      (∃ r, decode w = .illegal r ∧ t = s.withFault (.illegal w)) := by
  unfold runCommand at h
  split at h
  · exact .inl ⟨_, ‹_›, h⟩
  · cases h; exact .inr ⟨_, ‹_›, rfl⟩

/-- Everything a command can do when it goes on: report a fault; emit and record the answers; write `FB` and `CUR` and
complete; or begin a session (INIT alone). -/
theorem exec_next {i : Instr} {s t : State} (h : exec i s = .next t) :
    (∃ info, t = s.withFault info ∧ ∀ w, info ≠ .illegal w) ∨
      (∃ as, t = (s.emitAll as).finish (s.anyNack as)) ∨
      (∃ m n, t = ((s.setFb m).setCur n).finish false) ∨
      (∃ v as bs, i = .init v ∧
        t = ((((s.setVsrc v).emitAll as).openSession).emitAll bs).finish (s.anyNack (as ++ bs))) := by
  cases i with
  | init v => obtain ⟨as, bs, h⟩ := execInit_next h; exact .inr (.inr (.inr ⟨v, as, bs, rfl, h⟩))
  | clear => exact .inr (.inl (execClear_next h))
  | setcur r c =>
    rcases execSetcur_next h with h | h
    · exact .inl ⟨_, h, by simp⟩
    · exact .inr (.inl h)
  | wrchr ch => exact .inr (.inl (execWrchr_next h))
  | prchr ch =>
    rcases execPrchr_next h with ⟨-, h⟩ | ⟨-, p, h⟩ | ⟨-, h⟩
    · exact .inl ⟨_, h, by simp⟩
    · exact .inl ⟨_, h, by simp⟩
    · exact .inr (.inr (.inl h))
  | flush =>
    rcases execFlush_next h with ⟨-, h⟩ | ⟨-, h⟩
    · exact .inl ⟨_, h, by simp⟩
    · exact .inr (.inl h)

/-- Everything a presented word can do when it goes on. -/
theorem runCommand_cases {w : Word} {s t : State} (h : runCommand w s = .next t) :
    (∃ info, t = s.withFault info) ∨
      (∃ as, t = (s.emitAll as).finish (s.anyNack as)) ∨
      (∃ m n, t = ((s.setFb m).setCur n).finish false) ∨
      (∃ v as bs, decode w = .ok (.init v) ∧
        t = ((((s.setVsrc v).emitAll as).openSession).emitAll bs).finish (s.anyNack (as ++ bs))) := by
  rcases runCommand_next h with ⟨i, hd, h⟩ | ⟨r, hd, h⟩
  · rcases exec_next h with ⟨_, h', -⟩ | h' | h' | ⟨v, as, bs, rfl, h'⟩
    · exact .inl ⟨_, h'⟩
    · exact .inr (.inl h')
    · exact .inr (.inr (.inl h'))
    · exact .inr (.inr (.inr ⟨v, as, bs, hd, h'⟩))
  · exact .inl ⟨_, h⟩

/-- The log after INIT: the events of its configuration sequence and then of its CLEAR. -/
theorem init_log (s : State) (v : VSource) (as bs : List Action) (fail : Bool) :
    (((((s.setVsrc v).emitAll as).openSession).emitAll bs).finish fail).log = s.log ++ s.answered 0 (as ++ bs) := by
  have h := answered_emitAll s as 0 bs
  simp only [Nat.add_zero] at h
  have h1 : (((s.setVsrc v).emitAll as).openSession).answered 0 bs = (s.emitAll as).answered 0 bs :=
    answered_congr (by simp) (by simp) _ _
  have h2 : (s.setVsrc v).answered 0 as = s.answered 0 as := answered_congr (by simp) (by simp) _ _
  simp [h1, h2, answered_append, h]

end Sys2Proof.Machine
end

