-- ==== Sys2Proof/Laws/Commands.lean ====
section
/-! SUPPORT. The laws that tie the operations to the words of the claims (Sys2Proof/Safety.lean): the state after a
command's writes, CLEAR's writes by position, the glyph and scroll reads, and what the invariant gives. -/

namespace Sys2Proof.Machine

/-! ### The state after a command's writes -/

theorem answers_answered (s : State) (as : List Action) : Answers s as (s.answered 0 as) :=
  ⟨answered_actions s 0 as, by rw [answered_acks, List.range_eq_range']⟩

theorem answers_iff {s : State} {as : List Action} {es : List Event} : Answers s as es ↔ es = s.answered 0 as := by
  constructor
  · rintro ⟨ha, hk⟩
    exact answered_unique ha (by rw [hk, List.range_eq_range'])
  · rintro rfl; exact answers_answered s as

theorem anyNack_eq (s : State) (as : List Action) :
    s.anyNack as = (s.answered 0 as).any fun e => e.ack == some false := by
  simp only [State.anyNack]
  congr 1
  funext e
  exact nacked_eq e

/-- A command that emits `as` and does nothing else ends in `afterWrites` of its events. -/
theorem finish_emitAll (s : State) (as : List Action) :
    (s.emitAll as).finish (s.anyNack as) = s.afterWrites (s.answered 0 as) := by
  have hl : ((s.answered 0 as).filterMap Event.ack).length = busWrites as := by simp [answered_acks]
  simp only [State.finish, State.emitAll, State.afterWrites, hl, anyNack_eq]

/-! ### Lists of equal blocks -/

/-- Element `k` of block `i` of a list made of blocks of length `L`. -/
theorem getElem?_blocks {α : Type} (f : Nat → List α) (L : Nat) :
    ∀ (n i k : Nat), (∀ j, j < n → (f j).length = L) → i < n → k < L →
      ((List.range n).flatMap f)[L * i + k]? = (f i)[k]? := by
  intro n
  induction n with
  | zero => intro i k _ hi; omega
  | succ n ih =>
    intro i k hf hi hk
    have hlen : ((List.range n).flatMap f).length = L * n := by
      rw [List.length_flatMap]
      have : (List.range n).map (fun j => (f j).length) = List.replicate n L := by
        rw [List.eq_replicate_iff]
        refine ⟨by simp, fun b hb => ?_⟩
        obtain ⟨j, hj, rfl⟩ := List.mem_map.mp hb
        exact hf j (by have := List.mem_range.mp hj; omega)
      rw [this, List.sum_replicate_nat]; exact Nat.mul_comm n L
    rw [List.range_succ, List.flatMap_append]
    by_cases h : i < n
    · have hlt : L * i + k < L * n := by
        have h1 : L * (i + 1) ≤ L * n := Nat.mul_le_mul_left L h
        rw [Nat.mul_succ] at h1
        omega
      rw [List.getElem?_append_left (by omega)]
      exact ih i k (fun j hj => hf j (by omega)) h hk
    · obtain rfl : i = n := by omega
      rw [List.getElem?_append_right (by omega), hlen]
      simp

theorem length_blocks {α : Type} (f : Nat → List α) (L n : Nat) (hf : ∀ j, j < n → (f j).length = L) :
    ((List.range n).flatMap f).length = n * L := by
  induction n with
  | zero => simp
  | succ n ih =>
    rw [List.range_succ, List.flatMap_append, List.length_append, ih (fun j hj => hf j (by omega))]
    simp [hf n (by omega), Nat.succ_mul]

/-! ### CLEAR's writes by position -/

@[simp] theorem setcurActions_length (c : Config) (r col : Nat) : (setcurActions c r col).length = 3 := rfl

theorem pageByte_eq (c : Config) (r : Nat) : pageByte c r = c.pageBase + BitVec.ofNat 8 r := rfl

@[simp] theorem blankCell_length (c : Config) (space : List Byte) (r col : Nat) :
    (blankCell c space r col).length = 3 + space.length := by
  simp [blankCell]

/-- What CLEAR emits, by position, is R64's list. -/
theorem clearActions_isClearBody (c : Config) : IsClearBody c (clearActions c (List.replicate c.gw 0#8)) := by
  have hcell : ∀ r col, (blankCell c (List.replicate c.gw 0#8) r col).length = 3 + c.gw := by simp
  have hrow : ∀ r, ((List.range c.charColumns).flatMap fun col =>
      blankCell c (List.replicate c.gw 0#8) r col).length = c.charColumns * (3 + c.gw) := fun r =>
    length_blocks _ (3 + c.gw) c.charColumns fun j _ => hcell r j
  have hall : ((List.range c.charRows).flatMap fun r => (List.range c.charColumns).flatMap fun col =>
      blankCell c (List.replicate c.gw 0#8) r col).length = c.pages * (c.charColumns * (3 + c.gw)) :=
    length_blocks _ _ c.pages fun j _ => hrow j
  have hget : ∀ r col k, r < c.pages → col < c.charColumns → k < 3 + c.gw →
      (clearActions c (List.replicate c.gw 0#8))[1 + (3 + c.gw) * (c.charColumns * r + col) + k]? =
        (blankCell c (List.replicate c.gw 0#8) r col)[k]? := by
    intro r col k hr hc hk
    have hin : (3 + c.gw) * col + k < c.charColumns * (3 + c.gw) := by
      have h1 : (3 + c.gw) * (col + 1) ≤ (3 + c.gw) * c.charColumns := Nat.mul_le_mul_left _ hc
      rw [Nat.mul_succ] at h1
      rw [Nat.mul_comm c.charColumns]
      omega
    have hidx : (3 + c.gw) * (c.charColumns * r + col) + k =
        c.charColumns * (3 + c.gw) * r + ((3 + c.gw) * col + k) := by
      rw [Nat.mul_add]
      have : (3 + c.gw) * (c.charColumns * r) = c.charColumns * (3 + c.gw) * r := by ac_rfl
      omega
    have hlt : (3 + c.gw) * (c.charColumns * r + col) + k < c.pages * (c.charColumns * (3 + c.gw)) := by
      rw [hidx]
      have h1 : c.charColumns * (3 + c.gw) * (r + 1) ≤ c.charColumns * (3 + c.gw) * c.pages :=
        Nat.mul_le_mul_left _ hr
      rw [Nat.mul_succ] at h1
      rw [Nat.mul_comm c.pages]
      omega
    have e1 : 1 + (3 + c.gw) * (c.charColumns * r + col) + k =
        ((3 + c.gw) * (c.charColumns * r + col) + k) + 1 := by omega
    rw [clearActions, e1, List.cons_append, List.getElem?_cons_succ, List.getElem?_append_left (by omega), hidx,
      show c.charRows = c.pages from rfl,
      getElem?_blocks _ (c.charColumns * (3 + c.gw)) c.pages r _ (fun j _ => hrow j) hr hin,
      getElem?_blocks _ (3 + c.gw) c.charColumns col k (fun j _ => hcell r j) hc hk]
  have htail : ∀ k, (clearActions c (List.replicate c.gw 0#8))[1 + (3 + c.gw) * (c.charColumns * c.pages) + k]? =
      (Action.cmd c.displayOn :: setcurActions c 0 0)[k]? := by
    intro k
    have e1 : 1 + (3 + c.gw) * (c.charColumns * c.pages) + k =
        (c.pages * (c.charColumns * (3 + c.gw)) + k) + 1 := by
      have : (3 + c.gw) * (c.charColumns * c.pages) = c.pages * (c.charColumns * (3 + c.gw)) := by ac_rfl
      omega
    rw [clearActions, e1, List.cons_append, List.getElem?_cons_succ, List.getElem?_append_right (by omega), hall]
    simp
  refine ⟨?_, rfl, ?_, ?_, ?_⟩
  · simp only [clearActions, List.length_append, List.length_cons, hall, setcurActions_length]
    have : c.pages * (c.charColumns * (3 + c.gw)) = c.pages * c.charColumns * (3 + c.gw) := by ac_rfl
    omega
  · intro r col hr hc
    refine ⟨⟨?_, ?_, ?_⟩, ?_⟩
    · exact hget r col 0 hr hc (by omega)
    · exact hget r col 1 hr hc (by omega)
    · exact hget r col 2 hr hc (by omega)
    · intro i hi
      have := hget r col (3 + i) hr hc (by omega)
      rw [← Nat.add_assoc] at this
      rw [this, blankCell, List.getElem?_append_right (by simp)]
      simp [hi]
  · exact htail 0
  · refine ⟨?_, ?_, ?_⟩
    · have := htail 1
      rw [show 2 + (3 + c.gw) * (c.charColumns * c.pages) = 1 + (3 + c.gw) * (c.charColumns * c.pages) + 1 by omega]
      exact this
    · have := htail 2
      rw [show 2 + (3 + c.gw) * (c.charColumns * c.pages) + 1 = 1 + (3 + c.gw) * (c.charColumns * c.pages) + 2 by omega]
      exact this
    · have := htail 3
      rw [show 2 + (3 + c.gw) * (c.charColumns * c.pages) + 2 = 1 + (3 + c.gw) * (c.charColumns * c.pages) + 3 by omega]
      exact this

/-! ### Glyphs and the scroll by address -/

theorem hasGlyph_iff (c : Config) (ch : Nat) : hasGlyph c ch = true ↔ GlyphCode c ch := by
  simp [hasGlyph, GlyphCode]

/-- Byte `i` of a glyph's bytes is ROM byte `k × GW + i` (20_memory.md R30). -/
theorem glyph_getElem? (s : State) (k i : Nat) (hi : i < s.cfg.gw) :
    ((s.rom.drop (k * s.cfg.gw)).take s.cfg.gw)[i]? = s.rom[k * s.cfg.gw + i]? := by
  rw [List.getElem?_take_of_lt hi, List.getElem?_drop]

/-- What every address reads as after the bytes of a Line Scroll are written over a full buffer. -/
theorem read_scrolled {s : State} (hf : s.fb.map Prod.fst = List.range s.cfg.len) (hr : s.cfg.rowb ≤ s.cfg.len)
    (a : Nat) :
    Memory.read (Memory.writeBlock s.fb 0 (scrolledBytes s.cfg (s.fb.map Prod.snd))) a = scrolledRead s a := by
  have hl : (s.fb.map Prod.snd).length = s.cfg.len := by simpa using congrArg List.length hf
  have hw := scrolledBytes_length hl hr
  have hread : ∀ i, i < s.cfg.len → s.fb.read i = (s.fb.map Prod.snd)[i]? := fun i hi => by
    have := Memory.read_of_keys (a := 0) (n := s.cfg.len) (by rw [hf, List.range_eq_range']) hi
    simpa using this
  rw [Memory.read_writeBlock, hw]
  unfold scrolledRead
  by_cases h1 : a < s.cfg.len
  · rw [if_pos ⟨by omega, by omega⟩, Nat.sub_zero]
    by_cases h2 : a + s.cfg.rowb < s.cfg.len
    · rw [if_pos h2, hread _ h2, scrolledBytes, List.getElem?_append_left (by simp [hl]; omega), List.getElem?_drop,
        Nat.add_comm]
    · rw [if_neg h2, scrolledBytes, List.getElem?_append_right (by simp [hl]; omega)]
      cases hfill : s.cfg.scrollFill with
      | zero =>
        rw [if_pos ⟨h1, rfl⟩]
        have : a - (s.cfg.len - s.cfg.rowb) < s.cfg.rowb := by omega
        simp [hl, this]
      | keep =>
        rw [if_neg (by simp), hread _ h1]
        simp only [List.length_drop, hl, List.getElem?_drop]
        congr 1
        omega
  · rw [if_neg (by omega), if_neg (by omega), if_neg (by omega)]

theorem printCursor_full {s : State} (h : s.cfg.len - s.cfg.ovfMargin ≤ s.cur.toNat) :
    printCursor s = s.cfg.len - s.cfg.rowb := if_pos h

theorem printCursor_room {s : State} (h : s.cur.toNat < s.cfg.len - s.cfg.ovfMargin) : printCursor s = s.cur.toNat :=
  if_neg (by omega)

theorem glyphStart_skip {c : Config} {n : Nat} (h : c.wrapCol ≤ (n + 1) % c.w) :
    glyphStart c n = n + 1 + c.wrapSkip := if_pos h

theorem glyphStart_plain {c : Config} {n : Nat} (h : (n + 1) % c.w < c.wrapCol) : glyphStart c n = n + 1 :=
  if_neg (by omega)

/-! ### What the invariant gives -/

theorem inv_constraints {s : State} (h : s.Inv) :
    1 ≤ s.cfg.w ∧ 1 ≤ s.cfg.pages ∧ 1 ≤ s.cfg.gw ∧ 95 ≤ s.cfg.glyphCount ∧
      s.cfg.glyphBase + s.cfg.glyphCount ≤ 256 ∧ s.cfg.nlCode < s.cfg.glyphBase ∧
      s.cfg.colStride * (s.cfg.charColumns - 1) ≤ s.cfg.w - 1 ∧ s.cfg.rowb ≤ s.cfg.len :=
  (constraints_iff _).mp ((configured_iff s).mp h.configured).1.1

theorem inv_fits {s : State} (h : s.Inv) :
    s.cfg.len ≤ 2047 ∧ s.cfg.w ≤ 256 ∧ s.cfg.pages ≤ 256 ∧ s.cfg.pageBase.toNat + s.cfg.pages ≤ 256 ∧
      1 ≤ s.cfg.glyphPages :=
  (fits_iff _).mp ((configured_iff s).mp h.configured).1.2.1

/-- `CUR` holds every value up to `LEN` (10_state.md R15). -/
theorem cur_toNat {s : State} (h : s.Inv) {n : Nat} (hn : n ≤ s.cfg.len) : (BitVec.ofNat 11 n).toNat = n := by
  have := (inv_fits h).1
  rw [BitVec.toNat_ofNat]
  exact Nat.mod_eq_of_lt (by omega)

/-- The overflow check of PRCHR in a session: `CUR` is `printCursor`, and every address reads as `checkedRead`. -/
theorem scrollIfFull_eq {s : State} (h : s.Inv) (hi : s.inited = true) :
    ∃ m, scrollIfFull s = .ok ((s.setFb m).setCur (printCursor s)) ∧ m.map Prod.fst = List.range s.cfg.len ∧
      (∀ a, Memory.read m a = checkedRead s a) ∧ printCursor s ≤ s.cfg.len := by
  have hr := (inv_constraints h).2.2.2.2.2.2.2
  have hf := h.full hi
  unfold scrollIfFull printCursor checkedRead
  by_cases hc : s.cfg.len - s.cfg.ovfMargin ≤ s.cur.toNat
  · simp only [hc, if_true]
    have hl : (s.fb.map Prod.snd).length = s.cfg.len := by simpa using congrArg List.length hf
    exact ⟨_, lineScroll_eq hf hr, Memory.keys_writeBlock hf (by rw [scrolledBytes_length hl hr]; omega),
      read_scrolled hf hr, by omega⟩
  · simp only [hc, if_false]
    exact ⟨s.fb, by simp [State.setFb, State.setCur], hf, fun _ => rfl, h.cursor⟩

/-- The glyph's first index, from the state after the overflow check. -/
theorem glyphStart_checked {s : State} (h : s.Inv) (m : Memory) (hc : printCursor s ≤ s.cfg.len) :
    glyphStart s.cfg ((s.setFb m).setCur (printCursor s)).cur.toNat = printIndex s := by
  rw [setCur_cur, cur_toNat h hc, printIndex]

end Sys2Proof.Machine
end

