-- ==== Sys2Proof/Laws/Decode.lean ====
section
/-! SUPPORT. What the decoder answers, by the word's fields, and masks as divisions. -/

namespace Sys2Proof

/-- A word decodes to a command exactly when its fields are that command's (30_encoding.md R47, R48). -/
theorem decode_ok_iff (w : Word) (i : Instr) : decode w = .ok i ↔
    match i with
    | .init v => bits w 15 12 = 1 ∧ bits w 11 1 = 0 ∧ v = .ofBit (bits w 0 0)
    | .clear => bits w 15 12 = 2 ∧ bits w 11 0 = 0
    | .setcur row col => bits w 15 12 = 3 ∧ row = bits w 11 8 ∧ col = bits w 7 0
    | .wrchr ch => bits w 15 12 = 4 ∧ bits w 11 8 = 0 ∧ ch = bits w 7 0
    | .prchr ch => bits w 15 12 = 5 ∧ bits w 11 8 = 0 ∧ ch = bits w 7 0
    | .flush => bits w 15 12 = 6 ∧ bits w 11 0 = 0 := by
  constructor
  · intro h
    unfold decode zeroField at h
    split at h <;> (try split at h) <;> cases h <;> simp_all
  · intro h
    cases i <;> simp_all [decode, zeroField]

theorem zeroField_illegal {field : Nat} {i : Instr} :
    (∃ r, zeroField field i = .illegal r) ↔ field ≠ 0 := by
  unfold zeroField
  split <;> simp_all

/-- A word is illegal exactly by a reserved opcode or a must-be-zero field that is not zero (R49). -/
theorem decode_illegal_iff (w : Word) : (∃ r, decode w = .illegal r) ↔
    bits w 15 12 = 0 ∨ 7 ≤ bits w 15 12 ∨ (bits w 15 12 = 1 ∧ bits w 11 1 ≠ 0) ∨
      ((bits w 15 12 = 2 ∨ bits w 15 12 = 6) ∧ bits w 11 0 ≠ 0) ∨
      ((bits w 15 12 = 4 ∨ bits w 15 12 = 5) ∧ bits w 11 8 ≠ 0) := by
  unfold decode
  split
  case h_7 h1 h2 h3 h4 h5 h6 =>
    have h : bits w 15 12 ≠ 1 ∧ bits w 15 12 ≠ 2 ∧ bits w 15 12 ≠ 3 ∧ bits w 15 12 ≠ 4 ∧ bits w 15 12 ≠ 5 ∧
        bits w 15 12 ≠ 6 := ⟨h1, h2, h3, h4, h5, h6⟩
    refine ⟨fun _ => ?_, fun _ => ⟨_, rfl⟩⟩
    omega
  case h_3 h => simp [h]
  all_goals
    rename_i h
    rw [zeroField_illegal, h]
    omega

/-- Masking off the low `k` bits compares the bits above them. -/
theorem and_high_eq_iff (w : Word) {k : Nat} (v : Nat) (hk : k ≤ 16) (hv : v < 2 ^ (16 - k)) :
    w &&& (BitVec.allOnes 16 <<< k) = BitVec.ofNat 16 (v * 2 ^ k) ↔ w.toNat / 2 ^ k = v := by
  have hw := w.isLt
  have key : (w &&& (BitVec.allOnes 16 <<< k)).toNat = w.toNat / 2 ^ k * 2 ^ k := by
    have e : w &&& (BitVec.allOnes 16 <<< k) = (w >>> k) <<< k := by
      apply BitVec.eq_of_getLsbD_eq
      intro i hi
      rw [BitVec.getLsbD_and, BitVec.getLsbD_shiftLeft, BitVec.getLsbD_allOnes, BitVec.getLsbD_shiftLeft,
        BitVec.getLsbD_ushiftRight]
      by_cases h : i < k
      · simp [h]
      · have h2 : k + (i - k) = i := by omega
        have h3 : i - k < 16 := by omega
        simp [h, hi, h2, h3]
    rw [e, BitVec.toNat_shiftLeft, BitVec.toNat_ushiftRight, Nat.shiftLeft_eq, Nat.shiftRight_eq_div_pow]
    exact Nat.mod_eq_of_lt (lt_of_le_of_lt (Nat.div_mul_le_self _ _) hw)
  have hv2 : v * 2 ^ k < 2 ^ 16 := by
    calc v * 2 ^ k < 2 ^ (16 - k) * 2 ^ k := Nat.mul_lt_mul_of_pos_right hv (Nat.two_pow_pos k)
      _ = 2 ^ 16 := by rw [← Nat.pow_add]; congr 1; omega
  constructor
  · intro h
    have := congrArg BitVec.toNat h
    rw [key, BitVec.toNat_ofNat, Nat.mod_eq_of_lt hv2] at this
    exact Nat.eq_of_mul_eq_mul_right (Nat.two_pow_pos k) this
  · intro h
    apply BitVec.eq_of_toNat_eq
    rw [key, BitVec.toNat_ofNat, Nat.mod_eq_of_lt hv2, h]

/-- A bit field as a slice of the word. -/
theorem bits_eq_extract (w : Word) (hi lo : Nat) : bits w hi lo = (w.extractLsb' lo (hi + 1 - lo)).toNat := by
  simp [bits, BitVec.extractLsb'_toNat, Nat.shiftRight_eq_div_pow]

end Sys2Proof
end

