-- ==== Sys2Proof/Laws/Invariant.lean ====
section
/-! SUPPORT. What the invariant gives: how a state keeps it, and the one outcome of PRCHR in a state that meets it. -/

namespace Sys2Proof.Machine

theorem Memory.risingFrom_of_keys {a n : Nat} {m : Memory} (h : m.map Prod.fst = List.range' a n) :
    Memory.risingFrom a m = true := by
  induction n generalizing a m with
  | zero => simp at h; subst h; rfl
  | succ n ih =>
    cases m with
    | nil => simp at h
    | cons c m =>
      obtain ⟨k, v⟩ := c
      simp only [List.map_cons, List.range'_succ, List.cons.injEq] at h
      obtain ⟨rfl, h⟩ := h
      simp [Memory.risingFrom, ih h]

theorem configured_congr {s t : State} (hr : t.rom = s.rom) (hc : t.cfg = s.cfg) : t.configured = s.configured := by
  simp [State.configured, hr, hc]

/-- A state that differs in nothing the invariant reads keeps it. -/
theorem inv_of_same {s t : State} (h : s.Inv) (hc : t.cfg = s.cfg) (hr : t.rom = s.rom) (hf : t.fb = s.fb)
    (hu : t.cur = s.cur) (hi : t.inited = s.inited) (hv : t.vsrc = s.vsrc) : t.Inv where
  configured := by rw [configured_congr hr hc]; exact h.configured
  canonical := by rw [hf]; exact h.canonical
  inRange := by rw [hf, hc]; exact h.inRange
  full := by rw [hf, hc, hi]; exact h.full
  cursor := by rw [hu, hc]; exact h.cursor
  beforeSession := by rw [hi, hf, hu, hv]; exact h.beforeSession

/-- A state in a session with every byte of the buffer and a legal cursor meets it. -/
theorem inv_of_session {s t : State} (h : s.Inv) (hc : t.cfg = s.cfg) (hr : t.rom = s.rom)
    (hf : t.fb.map Prod.fst = List.range s.cfg.len) (hu : t.cur.toNat ≤ s.cfg.len) (hi : t.inited = true) : t.Inv where
  configured := by rw [configured_congr hr hc]; exact h.configured
  canonical := Memory.risingFrom_of_keys (n := s.cfg.len) (by rw [hf, List.range_eq_range'])
  inRange := by
    intro c hm
    have : c.1 ∈ t.fb.map Prod.fst := List.mem_map_of_mem hm
    rw [hf] at this
    simpa [hc] using this
  full := by simp [hc, hf]
  cursor := by simpa [hc] using hu
  beforeSession := by simp [hi]

/-- The bytes INIT writes are the whole buffer (41_init.md R56). -/
theorem openSession_keys {s : State} (h : ∀ c ∈ s.fb, c.1 < s.cfg.len) :
    s.openSession.fb.map Prod.fst = List.range s.cfg.len := by
  rw [openSession_fb, Memory.writeBlock_all (by simpa using h), Memory.cells_keys]
  simp [List.range_eq_range']

/-- A newline in a session succeeds (43_buffered_print.md R74). -/
theorem newline_of_inv {s : State} (h : s.Inv) (hi : s.inited = true) :
    ∃ m n, newline s = .ok ((s.setFb m).setCur n) ∧ n ≤ s.cfg.len ∧ m.map Prod.fst = List.range s.cfg.len := by
  have hr := (inv_constraints h).2.2.2.2.2.2.2
  have hf := h.full hi
  have hl : (s.fb.map Prod.snd).length = s.cfg.len := by simpa using congrArg List.length hf
  have hscroll : ∃ m n, lineScroll s = .ok ((s.setFb m).setCur n) ∧ n ≤ s.cfg.len ∧
      m.map Prod.fst = List.range s.cfg.len :=
    ⟨_, _, lineScroll_eq hf hr, by omega, Memory.keys_writeBlock hf (by rw [scrolledBytes_length hl hr]; omega)⟩
  unfold newline
  split
  · simp only
    split
    · exact hscroll
    · refine ⟨s.fb, _, rfl, ?_, hf⟩
      have hlt : s.cur.toNat / s.cfg.rowb + 1 ≤ s.cfg.len / s.cfg.rowb := by omega
      exact le_trans (Nat.mul_le_mul_right _ hlt) (Nat.div_mul_le_self _ _)
  · exact hscroll

/-- A glyph in a session lands, or raises FB_OOB (43_buffered_print.md R68, R72). -/
theorem printGlyph_of_inv {s : State} (h : s.Inv) (hi : s.inited = true) {ch : Nat} (hg : GlyphCode s.cfg ch) :
    (s.cfg.len < printIndex s + s.cfg.gw ∧ printGlyph ch s = .next (s.withFault (.fbOob (printIndex s)))) ∨
      (printIndex s + s.cfg.gw ≤ s.cfg.len ∧
        ∃ m, printGlyph ch s = .next (((s.setFb m).setCur (printIndex s + s.cfg.gw)).finish false) ∧
          m.map Prod.fst = List.range s.cfg.len) := by
  obtain ⟨m, he, hk, _, hc⟩ := scrollIfFull_eq h hi
  have hp := glyphStart_checked h m hc
  unfold printGlyph
  rw [he, orStop_ok]
  simp only [hp]
  split
  · exact .inl ⟨‹_›, rfl⟩
  · have hcnt : glyphNumber s.cfg ch < s.cfg.glyphCount := by
      unfold glyphNumber; obtain ⟨a, b⟩ := hg; omega
    obtain ⟨hgl, hlen⟩ := glyph_of_configured h.configured hcnt
    rw [hgl, orStop_ok, writeFb_inside (by simp [hlen] at *; omega), orStop_ok]
    refine .inr ⟨by omega, _, rfl, ?_⟩
    simp only [setCur_fb, setFb_fb]
    exact Memory.keys_writeBlock hk (by omega)

/-- The one outcome of PRCHR in a state that meets the invariant. -/
theorem execPrchr_of_inv {s : State} (h : s.Inv) (ch : Nat) :
    (s.inited = false ∧ execPrchr ch s = .next (s.withFault (.notInitPrchr ch))) ∨
      (s.inited = true ∧ ch ≠ s.cfg.nlCode ∧ GlyphCode s.cfg ch ∧ s.cfg.len < printIndex s + s.cfg.gw ∧
        execPrchr ch s = .next (s.withFault (.fbOob (printIndex s)))) ∨
      (s.inited = true ∧ ¬ (ch ≠ s.cfg.nlCode ∧ GlyphCode s.cfg ch ∧ s.cfg.len < printIndex s + s.cfg.gw) ∧
        ∃ m n, execPrchr ch s = .next (((s.setFb m).setCur n).finish false) ∧ n ≤ s.cfg.len ∧
          m.map Prod.fst = List.range s.cfg.len) := by
  unfold execPrchr
  by_cases hi : s.inited = false
  · rw [if_pos hi]; exact .inl ⟨hi, rfl⟩
  · rw [if_neg hi]
    have hi : s.inited = true := by simpa using hi
    refine .inr ?_
    split
    · obtain ⟨m, n, he, hn, hk⟩ := newline_of_inv h hi
      rw [he]
      exact .inr ⟨hi, by simp [*], m, n, rfl, hn, hk⟩
    · rename_i hn
      split
      · rename_i hg
        have hG := (hasGlyph_iff _ _).mp hg
        rcases printGlyph_of_inv h hi hG with ⟨a, b⟩ | ⟨a, m, b, c⟩
        · exact .inl ⟨hi, hn, hG, a, b⟩
        · exact .inr ⟨hi, by omega, m, _, b, a, c⟩
      · rename_i hg
        rw [hasGlyph_iff] at hg
        exact .inr ⟨hi, by simp [hg], s.fb, s.cur.toNat, by simp [State.setFb, State.setCur, complete], h.cursor,
          h.full hi⟩

end Sys2Proof.Machine
end

