-- ==== Sys2Proof/Laws/Panel.lean ====
section
/-! SUPPORT. The reference panel over a list of events: one list after another, and a list with every write acknowledged. -/

namespace Sys2Proof.Machine

theorem panel_run_append (c : Config) (n : Nat) (es fs : List Event) (p : Panel) :
    Panel.run c n (es ++ fs) p = Panel.run c (n + es.length) fs (Panel.run c n es p) := by
  induction es generalizing n p with
  | nil => rfl
  | cons e es ih => simp [Panel.run, ih, Nat.add_assoc, Nat.add_comm 1]

/-- An event that was not refused reaches the panel. -/
theorem panel_event_acknowledged {c : Config} {n : Nat} {e : Event} {p : Panel} (h : e.ack ≠ some false) :
    p.event c n e = p.receive c e.action := by
  simp [Panel.event, h]

/-- With every write acknowledged the panel receives exactly what was emitted, in order (20_memory.md R41). -/
theorem panel_run_acknowledged {c : Config} {n : Nat} {es : List Event} {p : Panel}
    (h : ∀ e ∈ es, e.ack ≠ some false) :
    Panel.run c n es p = (es.map Event.action).foldl (fun q a => q.receive c a) p := by
  induction es generalizing n p with
  | nil => rfl
  | cons e es ih =>
    simp only [Panel.run, List.map_cons, List.foldl_cons]
    rw [panel_event_acknowledged (h e (by simp)), ih fun f hf => h f (by simp [hf])]

end Sys2Proof.Machine
end

