-- ==== Sys2Proof/Laws/PerInstr.lean ====
section
/-! SUPPORT. One family of statements over the syntax: the word of a command with an encoding matches its row of the match
and mask table (30_encoding.md R47). -/

namespace Sys2Proof.Laws.EncodesRow

/-- The encoder writes the row's fixed bits, and the operands stay inside the row's operand bits. -/
def Statement (i : Instr) : Prop := i.wellFormed = true → i.opcodeRow.accepts (encode i) = true

theorem init (v : VSource) : Statement (.init v) := by
  cases v <;> exact fun _ => by decide

theorem clear : Statement .clear := fun _ => by decide

theorem setcur (row col : Nat) : Statement (.setcur row col) := by
  intro h
  simp only [Instr.wellFormed, Bool.and_eq_true, decide_eq_true_eq] at h
  have := and_high_eq_iff (BitVec.ofNat 16 (0x3000 + row * 256 + col)) (k := 12) 3 (by omega) (by omega)
  simp only [OpcodeRow.accepts, Instr.opcodeRow, encode, beq_iff_eq]
  refine this.mpr ?_
  rw [BitVec.toNat_ofNat]
  omega

theorem wrchr (ch : Nat) : Statement (.wrchr ch) := by
  intro h
  simp only [Instr.wellFormed, decide_eq_true_eq] at h
  have := and_high_eq_iff (BitVec.ofNat 16 (0x4000 + ch)) (k := 8) 0x40 (by omega) (by omega)
  simp only [OpcodeRow.accepts, Instr.opcodeRow, encode, beq_iff_eq]
  refine this.mpr ?_
  rw [BitVec.toNat_ofNat]
  omega

theorem prchr (ch : Nat) : Statement (.prchr ch) := by
  intro h
  simp only [Instr.wellFormed, decide_eq_true_eq] at h
  have := and_high_eq_iff (BitVec.ofNat 16 (0x5000 + ch)) (k := 8) 0x50 (by omega) (by omega)
  simp only [OpcodeRow.accepts, Instr.opcodeRow, encode, beq_iff_eq]
  refine this.mpr ?_
  rw [BitVec.toNat_ofNat]
  omega

theorem flush : Statement .flush := fun _ => by decide

end Sys2Proof.Laws.EncodesRow
end

