-- ==== Sys2Proof/Tests/Slice0.lean ====
section
/-! SUPPORT. The model's own tests: the well-formedness smoke, the decoder on words written out from 30_encoding.md R47,
one step on the vectors of 95_test_vectors.md (named V-…), and a witness for the hypotheses of each statement. -/

namespace Sys2Proof.Tests

-- One theorem at a time: a stack for each of many evaluations at once is more memory than a check has.
set_option Elab.async false

open Sys2Proof.Machine

/-! ### Helpers -/

/-- The test configuration TC (00_scope.md R9), the open parameters at fixed values. -/
def tc : Config :=
  { Config.atReset with
    tPowerOn := 100, tDisplayOn := 200, hostByteOrder := .lowFirst, hostMap := ⟨0, 2, 4⟩,
    panelPtrCmdsInHorizontal := false }

/-- A ROM whose byte `i` past the space glyph of `gw` bytes is `i + 1`. -/
def testRom (gw : Nat) : List Byte :=
  List.replicate gw 0#8 ++ (List.range (94 * gw)).map fun i => BitVec.ofNat 8 (i + 1)

/-- A 16-column panel of 2 pages with glyphs of `gw` bytes: small enough for the kernel. -/
def small (gw : Nat) : Config := { tc with w := 16, pages := 2, gw := gw, wrapCol := 14, charColumns := 2 }

/-- A state in a session, its buffer holding `bytes` and `CUR` at `n`, every scripted answer a success. -/
def session (c : Config) (bytes : List Byte) (n : Nat) : State :=
  { State.resetWith c (testRom c.gw) with
    fb := Memory.cells 0 bytes, cur := BitVec.ofNat 11 n, inited := true, acks := List.replicate 64 true }

/-- A session right after INIT, but for `CUR`. -/
def blank (c : Config) (n : Nat) : State := session c (List.replicate c.len 0#8) n

/-- A session of `small 2` whose address `a` holds `a + 1`. -/
def counted (c : Config) (n : Nat) : State := session c ((List.range c.len).map fun a => BitVec.ofNat 8 (a + 1)) n

/-- The reset state of a configuration with the test ROM. -/
def fresh (c : Config) : State := State.resetWith c (testRom c.gw)

/-- `o` answers a next state that passes `p`. -/
def Runs (o : Host.Outcome State Fault Refusal) (p : State → Bool) : Prop := ∃ t, o = .next t ∧ p t = true

/-- `Runs`, evaluated. -/
def runs (o : Host.Outcome State Fault Refusal) (p : State → Bool) : Bool :=
  match o with
  | .next t => p t
  | .fault _ => false
  | .refused _ => false

theorem runs_of {o : Host.Outcome State Fault Refusal} {p : State → Bool} (h : runs o p = true) : Runs o p := by
  cases o with
  | next t => exact ⟨t, rfl, h⟩
  | fault _ => cases h
  | refused _ => cases h

/-- The bytes of `s` from address `a` on. -/
def bytesAt (s : State) (a n : Nat) : List (Option Byte) := (List.range n).map fun i => s.fb.read (a + i)

/-- A session state meets the invariant. -/
theorem session_inv {c : Config} {bytes : List Byte} {n : Nat} (hc : c.valid = true)
    (hr : c.romOk (testRom c.gw) = true) (hb : bytes.length = c.len) (hn : n ≤ c.len) : (session c bytes n).Inv := by
  have hk : (session c bytes n).fb.map Prod.fst = List.range c.len := by
    simp [session, Memory.cells_keys, hb, List.range_eq_range']
  have hl : c.len ≤ 2047 := by
    have hf : c.fits = true := by simp [Config.valid] at hc; exact hc.1.2
    exact ((fits_iff c).mp hf).1
  refine ⟨by simp [State.configured, session, State.resetWith, hc, hr], Memory.risingFrom_cells 0 bytes, ?_, fun _ => hk,
    ?_, fun h => by cases h⟩
  · intro x hx
    have : x.1 ∈ (session c bytes n).fb.map Prod.fst := List.mem_map_of_mem hx
    rw [hk] at this
    simpa [session, State.resetWith] using this
  · have : (BitVec.ofNat 11 n).toNat = n := by
      rw [BitVec.toNat_ofNat]
      exact Nat.mod_eq_of_lt (by omega)
    change (BitVec.ofNat 11 n).toNat ≤ c.len
    omega

theorem blank_inv {c : Config} {n : Nat} (hc : c.valid = true) (hr : c.romOk (testRom c.gw) = true) (hn : n ≤ c.len) :
    (blank c n).Inv := session_inv hc hr (by simp) hn

theorem tc_inv {n : Nat} (h : n ≤ 1024) : (blank tc n).Inv :=
  blank_inv (by decide +kernel) (by decide +kernel) h

theorem small_inv {n : Nat} (h : n ≤ 32) : (blank (small 2) n).Inv :=
  blank_inv (by decide +kernel) (by decide +kernel) h

/-! ### Well-formedness (30_encoding.md R51): each check refuses its ill-formed term -/

theorem test_wf_row : (Instr.setcur 16 0).wellFormed = false := by decide
theorem test_wf_col : (Instr.setcur 0 256).wellFormed = false := by decide
theorem test_wf_wrchr : (Instr.wrchr 256).wellFormed = false := by decide
theorem test_wf_prchr : (Instr.prchr 256).wellFormed = false := by decide
theorem test_wf_widest : (Instr.setcur 15 255).wellFormed = true ∧ (Instr.wrchr 255).wellFormed = true ∧
    (Instr.prchr 255).wellFormed = true ∧ (Instr.init .external).wellFormed = true ∧
    Instr.clear.wellFormed = true ∧ Instr.flush.wellFormed = true := by decide

/-! ### Decoding, words written out from R47's bit patterns -/

theorem test_decode_init : decode 0b0001000000000001#16 = .ok (.init .external) ∧
    decode 0b0001000000000000#16 = .ok (.init .internal) := by decide
theorem test_decode_clear : decode 0b0010000000000000#16 = .ok .clear := by decide
theorem test_decode_setcur : decode 0b0011011100001111#16 = .ok (.setcur 7 15) := by decide
theorem test_decode_wrchr : decode 0b0100000001111110#16 = .ok (.wrchr 126) := by decide
theorem test_decode_prchr : decode 0b0101000000001010#16 = .ok (.prchr 10) := by decide
theorem test_decode_flush : decode 0b0110000000000000#16 = .ok .flush := by decide

/-- V-DEC-1, -4, -5, -7, -10, -12, -14 and -15. -/
theorem test_decode_illegal :
    [0x0000#16, 0x7000#16, 0x8000#16, 0xA5A5#16, 0xF000#16, 0xFFFF#16].map decode =
      List.replicate 6 (.illegal .reservedOpcode) ∧
    [0x1002#16, 0x1800#16, 0x2001#16, 0x4100#16, 0x5F41#16, 0x6080#16].map decode =
      List.replicate 6 (.illegal .mustBeZero) := by decide

theorem test_table_word : decodeTableWord 16 0x3203 = some (.setcur 2 3) ∧ decodeTableWord 16 0x0000 = none ∧
    decodeTableWord 16 0x2001 = none := by decide

theorem test_host_bytes : decodeBytes .lowFirst [0x41#8, 0x50#8, 0x00#8] = .ok (.prchr 65) [0x00#8] ∧
    decodeBytes .highFirst [0x50#8, 0x41#8] = .ok (.prchr 65) [] ∧ decodeBytes .highFirst [0x50#8] = .tooShort ∧
    decodeBytes .highFirst [0x70#8, 0x41#8] = .illegal 0x7041#16 .reservedOpcode := by decide

/-! ### The assembler (R51, R52, and the program listings of 95_test_vectors.md section 3) -/

theorem test_assemble_setcur : assembleLine "SETCUR 2, 0x03 ; V-SC-2".toList = some [0x3203#16] := by decide +kernel
theorem test_assemble_newline : assembleLine "PRCHR '\\n'".toList = some [0x500A#16] := by decide +kernel
theorem test_assemble_string : assembleLine "WRSTR \"Hi\"".toList = some [0x4048#16, 0x4069#16] ∧
    assembleLine "PRSTR \"\"".toList = some [] := by decide +kernel
/-- Log entry 13: a quoted `;` is a character. -/
theorem test_assemble_quoted_semicolon : assembleLine "WRCHR ';' ; x".toList = some [0x403B#16] := by decide +kernel
theorem test_assemble_refuses : assembleLine "SETCUR 16, 0".toList = none ∧ assembleLine "WRCHR 256".toList = none ∧
    assembleLine "INIT".toList = none := by decide +kernel
theorem test_wrstr_result : wrstrReply [.ok, .fail, .ok] = .fail ∧ wrstrReply [] = .ok := by decide

/-! ### Reset and the host interface -/

theorem test_reset_configured : State.reset.configured = true := by decide +kernel

/-- The first word after reset, as the host of this row presents it. -/
theorem test_reset_runs_first_word : Runs (step (State.reset.withFetchWord 16 0x3010)) fun t =>
    t.reply == some (.fault (.cursorRange 0 16)) && t.host.isEmpty := runs_of (by decide +kernel)

/-- V-DEC-16: ILLEGAL is decided before NOT_INIT. -/
theorem test_illegal_first : Runs (step ((fresh tc).present 0x5100#16)) fun t =>
    t.statusWord == 0x0010#16 && t.reply == some (.fault (.illegal 0x5100#16)) := runs_of (by decide +kernel)

theorem test_present_bytes : ((fresh tc).presentBytes 0 [0x41#8, 0x50#8]).host = [.command 0x5041#16] ∧
    (fresh tc).presentBytes 2 [0x41#8, 0x50#8] = fresh tc := by decide +kernel

/-- R24: the views at their addresses. -/
theorem test_views : (blank tc 14).hostRead 2 = some 0x0002#16 ∧ (blank tc 14).hostReadBytes 4 = some [0x0E#8, 0x00#8] ∧
    (blank tc 14).hostRead 6 = none := by decide +kernel

/-- Hardware reset ends the session and clears what a fault left (R97). -/
theorem test_hardware_reset : Runs (step ({ blank (small 2) 7 with faults := 0b1011#4, host := [.reset] })) fun t =>
    t.statusWord == 0x0000#16 && t.cursorWord == 0x0000#16 && t.fb.isEmpty && t.log.isEmpty :=
  runs_of (by decide +kernel)

/-! ### INIT -/

/-- V-INIT-1 and V-INIT-4, on the small panel: every step is done whatever write 5 is answered. -/
theorem test_init_fail : Runs (exec (.init .internal) { fresh (small 2) with
      acks := [true, true, true, true, false] ++ List.replicate 60 true }) fun t =>
    t.statusWord == 0x0003#16 && t.cur == 0#11 && bytesAt t 0 32 == List.replicate 32 (some 0#8) &&
      t.fb.length == 32 && t.log.take 7 == [.wait 100, .cmd 0xD5#8 true, .cmd 0x80#8 true, .cmd 0xA8#8 true,
        .cmd 0x3F#8 true, .cmd 0xD3#8 false, .cmd 0x00#8 true] := runs_of (by decide +kernel)

/-- V-INIT-2 and V-INIT-8: VSRC, the external bytes, and a fault bit that stays. -/
theorem test_init_external : Runs (exec (.init .external) { blank (small 2) 7 with faults := 0b0001#4 }) fun t =>
    t.statusWord == 0x0016#16 && ((t.log.map Event.action).drop 8).take 2 == [.cmd 0x8D#8, .cmd 0x10#8] :=
  runs_of (by decide +kernel)

/-! ### The direct path -/

/-- V-SC-2 and V-SC-9. -/
theorem test_setcur : Runs (exec (.setcur 2 3) { fresh tc with acks := [true, false, true] }) fun t =>
    t.log == [.cmd 0xB2#8 true, .cmd 0x08#8 false, .cmd 0x11#8 true] && t.statusWord == 0x0001#16 &&
      t.reply == some .fail := runs_of (by decide +kernel)

/-- V-SC-5 and V-SC-6. -/
theorem test_setcur_edge : (Runs (exec (.setcur 7 15) { fresh tc with acks := [true, true, true] }) fun t =>
      t.log.map Event.action == [.cmd 0xB7#8, .cmd 0x08#8, .cmd 0x17#8] && t.reply == some .ok) ∧
    Runs (exec (.setcur 8 0) (fresh tc)) fun t => t.log.isEmpty && t.statusWord == 0x0040#16 :=
  ⟨runs_of (by decide +kernel), runs_of (by decide +kernel)⟩

/-- R64 on the small panel: all writes are made and the buffer stays. -/
theorem test_clear : Runs (exec .clear { counted (small 2) 5 with acks := List.replicate 25 false }) fun t =>
    t.log.length == 25 && t.fail && t.fb == (counted (small 2) 5).fb && t.cur == 5#11 &&
      (t.log.map Event.action).take 8 == [.cmd 0xAE#8, .cmd 0xB0#8, .cmd 0x00#8, .cmd 0x10#8, .data 0#8, .data 0#8,
        .cmd 0xB0#8, .cmd 0x08#8] &&
      (t.log.map Event.action).drop 21 == [.cmd 0xAF#8, .cmd 0xB0#8, .cmd 0x00#8, .cmd 0x10#8] :=
  runs_of (by decide +kernel)

/-- V-WR-1 and V-WR-8: byte 0 first; glyph 65 − 32 = 33 starts at ROM byte 198, which `testRom` makes 193. -/
theorem test_wrchr : Runs (exec (.wrchr 65) { fresh tc with acks := [true, true, false, true, true, true] }) fun t =>
    t.log == [.data 193#8 true, .data 194#8 true, .data 195#8 false, .data 196#8 true, .data 197#8 true,
      .data 198#8 true] && t.reply == some .fail := runs_of (by decide +kernel)

/-- V-WR-4: the first code after the table is dropped, and FAIL is 0. -/
theorem test_wrchr_dropped : Runs (exec (.wrchr 127) { fresh tc with fail := true }) fun t =>
    t.log.isEmpty && t.statusWord == 0x0000#16 && t.reply == some .ok := runs_of (by decide +kernel)

/-! ### The buffered print -/

/-- V-PR-4: the column skip. -/
theorem test_prchr_skip : Runs (exec (.prchr 65) (blank tc 126)) fun t =>
    t.cur == 135#11 && bytesAt t 128 8 == [some 0#8, some 193#8, some 194#8, some 195#8, some 196#8, some 197#8,
      some 198#8, some 0#8] && t.log.isEmpty := runs_of (by decide +kernel)

/-- V-PR-12: FB_OOB, and nothing is written. -/
theorem test_prchr_oob : Runs (exec (.prchr 65) (blank tc 1021)) fun t =>
    t.reply == some (.fault (.fbOob 1024)) && t.statusWord == 0x0082#16 && t.cur == 1021#11 &&
      t.fb == (blank tc 1021).fb := runs_of (by decide +kernel)

/-- V-SCR-1 on the small panel: `CUR` at LEN − 2 scrolls first. -/
theorem test_scroll_zero : Runs (exec (.prchr 32) (counted (small 2) 30)) fun t =>
    t.cur == 19#11 && bytesAt t 0 3 == [some 17#8, some 18#8, some 19#8] &&
      bytesAt t 15 3 == [some 32#8, some 0#8, some 0#8] && bytesAt t 31 1 == [some 0#8] :=
  runs_of (by decide +kernel)

/-- V-SCR-2 on the small panel: KEEP leaves the bottom row as it was. -/
theorem test_scroll_keep : Runs (exec (.prchr 32) (counted { small 2 with scrollFill := .keep } 30)) fun t =>
    t.cur == 19#11 && bytesAt t 15 5 == [some 32#8, some 17#8, some 0#8, some 0#8, some 20#8] &&
      bytesAt t 31 1 == [some 32#8] := runs_of (by decide +kernel)

/-- V-NL-3 and V-NL-9: the two newline modes. -/
theorem test_newline : (Runs (exec (.prchr 10) (blank tc 126)) fun t => t.cur == 128#11 && t.fb == (blank tc 126).fb) ∧
    Runs (exec (.prchr 10) (counted { small 2 with newlineMode := .scroll } 5)) fun t =>
      t.cur == 16#11 && bytesAt t 0 2 == [some 17#8, some 18#8] :=
  ⟨runs_of (by decide +kernel), runs_of (by decide +kernel)⟩

/-- R72: a Line Scroll of the faulting command is not kept. -/
theorem test_scroll_not_kept : Runs (exec (.prchr 65) (counted (small 16) 30)) fun t =>
    t.reply == some (.fault (.fbOob 17)) && t.cur == 30#11 && t.fb == (counted (small 16) 30).fb :=
  runs_of (by decide +kernel)

/-! ### FLUSH and the panel -/

/-- V-FL-1 and V-FL-4 on the small panel. -/
theorem test_flush : Runs (exec .flush { counted (small 2) 5 with acks := List.replicate 38 false }) fun t =>
    t.log.length == 38 && t.reply == some .fail && t.cur == 5#11 &&
      (t.log.map Event.action).take 8 == [.cmd 0x21#8, .cmd 0#8, .cmd 15#8, .cmd 0x22#8, .cmd 0#8, .cmd 1#8,
        .data 1#8, .data 2#8] := runs_of (by decide +kernel)

/-- V-FT-1. -/
theorem test_flush_not_init : Runs (exec .flush (fresh tc)) fun t => t.statusWord == 0x0020#16 && t.log.isEmpty :=
  runs_of (by decide +kernel)

/-- A panel in horizontal mode with other windows and pointers. -/
def panel (pages : Nat) : Panel where
  pages := pages
  gddram := []
  mode := .horizontal
  pagePtr := 1
  colPtr := 3
  colStart := 2
  colEnd := 9
  pageStart := 1
  pageEnd := 1
  displayOn := true
  received := []

/-- R96: an acknowledged FLUSH shows the buffer and leaves the pointers at (0, 0). -/
theorem test_panel_flush : Runs (exec .flush (counted (small 2) 5)) fun t =>
    let p := Panel.run (small 2) 0 t.log (panel 2)
    p.pixelByte 0 0 == some 1#8 && p.pixelByte 0 15 == some 16#8 && p.pixelByte 1 0 == some 17#8 &&
      p.pixelByte 1 15 == some 32#8 && p.pixelByte 0 16 == none && p.pagePtr == 0 && p.colPtr == 0 :=
  runs_of (by decide +kernel)

/-- R96: SETCUR in page mode moves the pointers, and a data byte lands there. -/
theorem test_panel_page_mode : Runs (exec (.setcur 1 1) (blank (small 2) 0)) fun t =>
    let p := Panel.run (small 2) 0 t.log { panel 2 with mode := .page, pagePtr := 0 }
    p.pagePtr == 1 && p.colPtr == 8 && (p.data 0xFF#8).pixelByte 1 8 == some 0xFF#8 := runs_of (by decide +kernel)

/-! ### Witnesses: for each statement with hypotheses, states and operands that meet all of them -/

theorem test_witness_DecodeOfEncodeIsTheCommand : (Instr.setcur 15 255).wellFormed = true ∧
    (Instr.init .external).wellFormed = true ∧ (Instr.prchr 255).wellFormed = true := by decide

theorem test_witness_EncodeOfDecodeIsTheWord : decode 0x3FFF#16 = .ok (.setcur 15 255) ∧
    decode 0x5000#16 = .ok (.prchr 0) := by decide

theorem test_witness_DecodeFollowsMaskTable : 0x4FFF#16 &&& 0xFF00#16 ≠ 0x4000#16 ∧
    0x40FF#16 &&& 0xFF00#16 = 0x4000#16 ∧ (⟨0x4000#16, 0xFF00#16⟩ : OpcodeRow) ∈ opcodeTable ∧
    (⟨0x4000#16, 0xFF00#16⟩ : OpcodeRow).accepts 0x40FF#16 = true := by decide

theorem test_witness_OperandsAreTheFields : decode 0x1001#16 = .ok (.init .external) ∧
    decode 0x3FFF#16 = .ok (.setcur 15 255) ∧ decode 0x40FF#16 = .ok (.wrchr 255) ∧
    decode 0x50FF#16 = .ok (.prchr 255) := by decide

theorem test_witness_IllegalWordFaultsAndChangesNothingElse :
    (fresh tc).configured = true ∧ ((fresh tc).present 0x1002#16).host = [.command 0x1002#16] ∧
    ((0x1002#16).extractLsb' 12 4).toNat = 1 ∧ (0x1002#16).extractLsb' 1 11 ≠ 0#11 ∧
    (0x6001#16).extractLsb' 0 12 ≠ 0#12 ∧ (0x4100#16).extractLsb' 8 4 ≠ 0#4 ∧
    7 ≤ ((0x7000#16).extractLsb' 12 4).toNat ∧ ((0x0FFF#16).extractLsb' 12 4).toNat = 0 := by decide +kernel

theorem test_witness_StringCommandsExpandPerByte : ∀ c ∈ ['H', 'i', ';'], c ≠ '"' ∧ c.toNat ≤ 255 := by
  intro c hc
  simp only [List.mem_cons, List.not_mem_nil, or_false] at hc
  rcases hc with rfl | rfl | rfl <;> simp

theorem test_witness_StepRunsThePresentedCommand : ((fresh tc).present 0x4041#16).configured = true ∧
    ((fresh tc).present 0x4041#16).host = .command 0x4041#16 :: [] ∧ decode 0x4041#16 = .ok (.wrchr 65) := by
  decide +kernel

theorem test_witness_IdleStepHoldsTheState : (fresh tc).configured = true ∧ (fresh tc).host = [] := by decide +kernel

theorem test_witness_OverlappingCommandIsRefused :
    ((fresh tc).setHost [.overlap 0x2000#16]).configured = true := by decide +kernel

/-- The newline code may not have a glyph (R8): 31 may be the newline, 32 may not. -/
theorem test_witness_ConfigurationOutsideTheSpecIsRefused :
    ¬ ({ tc with nlCode := 32 }.nlCode < { tc with nlCode := 32 }.glyphBase) ∧
    { tc with nlCode := 31 }.valid = true ∧ { tc with nlCode := 32 }.valid = false ∧
    { tc with glyphCount := 94 }.valid = false := by decide +kernel

theorem test_witness_HardwareResetLeavesTheResetValues : ((fresh tc).setHost [.reset]).configured = true ∧
    Runs (step { blank (small 2) 7 with faults := 0b0001#4, host := [.reset] }) (fun t =>
      !t.inited && t.faults == 0#4) := ⟨by decide +kernel, runs_of (by decide +kernel)⟩

theorem test_witness_ResetStateMeetsTheInvariant : (small 2).valid = true ∧ (small 2).romOk (testRom 2) = true := by
  decide +kernel

theorem test_witness_InitFollowsItsRule : (fresh tc).configured = true ∧ (blank (small 2) 32).configured = true := by
  decide +kernel

theorem test_witness_DefaultInitSequenceIsTheTable : tc.initSteps = defaultInitSteps := rfl

theorem test_witness_InitSequencesDifferInThreeItems : (small 2).valid = true := by decide +kernel

/-- The addressing-mode step may not select page mode (R58 item 5), and the two contrasts may not be one (item 2). -/
theorem test_witness_InitSequenceOutsideTheRuleIsRefused :
    { tc with initSteps := { defaultInitSteps with memoryMode := [0x20#8, 0x02#8] } }.valid = false ∧
    { tc with initSteps := { defaultInitSteps with contrast := ⟨[0x81#8], 1#8, 1#8, []⟩ } }.valid = false ∧
    { tc with initSteps := { defaultInitSteps with comPins := [] } }.valid = false ∧
    { tc with initSteps := { defaultInitSteps with displayOn := [0xAE#8] } }.valid = false := by decide +kernel

/-- A panel in page mode and off before INIT is on and in horizontal mode after it. -/
theorem test_witness_AcknowledgedInitSelectsHorizontalMode : (fresh (small 2)).configured = true ∧
    (small 2).initSteps = defaultInitSteps ∧ (small 2).displayOff = 0xAE#8 ∧ (small 2).displayOn = 0xAF#8 ∧
    (small 2).pageBase = 0xB0#8 ∧ (small 2).colLoBase = 0x00#8 ∧ (small 2).colHiBase = 0x10#8 ∧
    (small 2).pages ≤ 24 ∧ (panel 2).pages = (small 2).pages ∧ (panel 2).received = [] ∧
    Runs (exec (.init .internal) { fresh (small 2) with acks := List.replicate 47 true }) fun t =>
      let p := Panel.run (small 2) 0 t.log { panel 2 with mode := .page, displayOn := false }
      !t.fail && p.mode == .horizontal && p.displayOn && p.received.isEmpty :=
  ⟨by decide +kernel, rfl, rfl, rfl, rfl, rfl, rfl, by decide, rfl, rfl, runs_of (by decide +kernel)⟩

theorem test_witness_CodesWithAGlyph : tc.glyphBase = 32 ∧ tc.glyphCount = 95 := by decide

/-- The last legal cell, and the first row and column past it. -/
theorem test_witness_SetcurFollowsItsRule : 7 < (fresh tc).cfg.pages ∧ 15 < (fresh tc).cfg.charColumns ∧
    (fresh tc).cfg.pages ≤ 8 ∧ (fresh tc).cfg.charColumns ≤ 16 := by decide

theorem test_witness_ClearFollowsItsRule : (fresh tc).configured = true := by decide +kernel

/-- The first and the last code with a glyph, and the codes beside them. -/
theorem test_witness_WrchrFollowsItsRule : (fresh tc).configured = true ∧ GlyphCode tc 32 ∧ GlyphCode tc 126 ∧
    ¬ GlyphCode tc 31 ∧ ¬ GlyphCode tc 127 := by
  refine ⟨by decide +kernel, ?_, ?_, ?_, ?_⟩ <;> unfold GlyphCode <;> decide

theorem test_witness_DirectPathLeavesTheSession : (Runs (exec .clear (blank (small 2) 3)) fun _ => true) ∧
    (Runs (exec (.setcur 1 1) (blank (small 2) 3)) fun _ => true) ∧
    Runs (exec (.wrchr 126) (blank (small 2) 3)) fun _ => true :=
  ⟨runs_of (by decide +kernel), runs_of (by decide +kernel), runs_of (by decide +kernel)⟩

theorem test_witness_PrchrBeforeInitFaults : (fresh tc).inited = false := rfl

theorem test_witness_PrchrDropsCodesWithoutAGlyph : (blank tc 14).inited = true ∧ 127 ≠ tc.nlCode ∧
    ¬ GlyphCode tc 127 := ⟨rfl, by decide, by unfold GlyphCode; decide⟩

/-- The glyph that ends on the last byte: three bytes from 29 in a buffer of 32. -/
theorem test_witness_PrchrPlacesTheGlyph : (blank (small 3) 28).Inv ∧ (blank (small 3) 28).inited = true ∧
    65 ≠ (small 3).nlCode ∧ GlyphCode (small 3) 65 ∧
    printIndex (blank (small 3) 28) + (small 3).gw = (small 3).len :=
  ⟨blank_inv (by decide +kernel) (by decide +kernel) (by decide), rfl, by decide, by unfold GlyphCode; decide,
    by decide +kernel⟩

/-- The four cases at their edges: no skip at 13 − 1, a skip at 14 − 1, a scroll at LEN − 2, a scroll with a skip. -/
theorem test_witness_PrchrAdvancesTheCursor :
    (blank (small 2) 12).Inv ∧ (12 + 1) % 16 < (small 2).wrapCol ∧ (small 2).wrapCol ≤ (13 + 1) % 16 ∧
    (small 2).len - (small 2).ovfMargin = 30 ∧
    (Runs (exec (.prchr 65) (blank (small 2) 12)) fun t => t.reply == some .ok && t.cur == 15#11) ∧
    (Runs (exec (.prchr 65) (blank (small 2) 13)) fun t => t.reply == some .ok && t.cur == 18#11) ∧
    (Runs (exec (.prchr 65) (blank (small 2) 30)) fun t => t.reply == some .ok && t.cur == 19#11) ∧
    Runs (exec (.prchr 65) (blank { small 2 with wrapCol := 1 } 30)) fun t => t.reply == some .ok && t.cur == 21#11 :=
  ⟨small_inv (by decide), by decide, by decide, by decide, runs_of (by decide +kernel), runs_of (by decide +kernel),
    runs_of (by decide +kernel), runs_of (by decide +kernel)⟩

theorem test_witness_PrchrPastTheEndFaults : (blank (small 2) 29).Inv ∧ (blank (small 2) 29).inited = true ∧
    GlyphCode (small 2) 65 ∧ (small 2).len < printIndex (blank (small 2) 29) + (small 2).gw ∧
    (blank tc 1021).Inv ∧ tc.len < printIndex (blank tc 1021) + tc.gw :=
  ⟨small_inv (by decide), rfl, by unfold GlyphCode; decide, by decide +kernel, tc_inv (by decide), by decide +kernel⟩

/-- The last cursor of row 0, the first of the last row, and the SCROLL mode. -/
theorem test_witness_NewlineFollowsItsRule : (blank (small 2) 15).Inv ∧ 15 / (small 2).rowb + 1 < 2 ∧
    (small 2).len / (small 2).rowb ≤ 16 / (small 2).rowb + 1 ∧ (blank { small 2 with newlineMode := .scroll } 0).Inv :=
  ⟨small_inv (by decide), by decide, by decide,
    blank_inv (by decide +kernel) (by decide +kernel) (by decide)⟩

theorem test_witness_LineScrollMovesTheRowsUp : (blank (small 2) 30).Inv ∧ (small 2).scrollFill = .zero ∧
    (blank { small 2 with scrollFill := .keep } 30).Inv ∧ (small 2).len - (small 2).rowb = 16 :=
  ⟨small_inv (by decide), rfl, blank_inv (by decide +kernel) (by decide +kernel) (by decide), by decide⟩

theorem test_witness_PrchrIsInvisibleUntilFlush :
    (Runs (exec (.prchr 65) (blank (small 2) 29)) fun t => t.answeredFault) ∧
    Runs (exec (.prchr 65) (blank (small 2) 28)) fun t => !t.answeredFault :=
  ⟨runs_of (by decide +kernel), runs_of (by decide +kernel)⟩

/-- The last slot of a row, its end, and the end of the last row. -/
theorem test_witness_TestLayoutPlacesGlyphsInSlots : TestLayout tc ∧ (blank tc (128 * 0 + 7 * 17)).Inv ∧
    (blank tc (128 * 6 + 7 * 18)).Inv ∧ (blank tc (128 * 7 + 7 * 18)).Inv ∧
    (blank tc (128 * 7 + 7 * 18)).cur.toNat = 128 * 7 + 7 * 18 ∧ GlyphCode tc 65 :=
  ⟨by unfold TestLayout; decide, tc_inv (by decide), tc_inv (by decide), tc_inv (by decide), by decide,
    by unfold GlyphCode; decide⟩

theorem test_witness_FlushFollowsItsRule : (fresh tc).inited = false ∧ (blank tc 7).Inv ∧ (blank tc 7).inited = true :=
  ⟨rfl, tc_inv (by decide), rfl⟩

theorem test_witness_FlushAfterClearSendsTheSameBytes : (blank (small 2) 32).Inv ∧ (blank (small 2) 32).inited = true :=
  ⟨small_inv (by decide), rfl⟩

theorem test_witness_AcknowledgedFlushShowsTheFramebuffer : (blank (small 2) 5).Inv ∧ (small 2).w ≤ 128 ∧
    (small 2).setColWindow = 0x21#8 ∧ (small 2).setPageWindow = 0x22#8 ∧ (panel 2).pages = (small 2).pages ∧
    (panel 2).mode = .horizontal ∧ (panel 2).received = [] ∧
    Runs (exec .flush (blank (small 2) 5)) fun t => !t.fail && t.log.length == 38 :=
  ⟨small_inv (by decide), by decide, rfl, rfl, rfl, rfl, rfl, runs_of (by decide +kernel)⟩

/-- A command with a missing answer, one without, and one that faults. -/
theorem test_witness_FailMeansAMissingAcknowledgement :
    (Runs (runCommand 0x3203#16 { fresh tc with acks := [true, true, false] }) fun t => !t.answeredFault && t.fail) ∧
    (Runs (runCommand 0x5000#16 { blank (small 2) 0 with fail := true }) fun t => !t.answeredFault && !t.fail) ∧
    Runs (runCommand 0x3800#16 { fresh tc with fail := true }) fun t => t.answeredFault && t.fail :=
  ⟨runs_of (by decide +kernel), runs_of (by decide +kernel), runs_of (by decide +kernel)⟩

theorem test_witness_LogRecordsTheAnswersInOrder :
    Runs (runCommand 0x3203#16 { fresh tc with acks := [true, true, false, true] }) fun t =>
      t.log.filterMap Event.ack == [true, true, false] && t.acks == [true] && t.draws == 3 :=
  runs_of (by decide +kernel)

theorem test_witness_AnswersReachOnlyTheStatus : Runs (exec (.wrchr 65) (fresh tc)) fun t => t.draws == 6 :=
  runs_of (by decide +kernel)

/-- Each fault's cause, and a command without one. -/
theorem test_witness_FaultsHaveExactlyTheListedCauses : (blank (small 2) 29).Inv ∧
    (Runs (runCommand 0x0000#16 (blank (small 2) 29)) fun t => t.reply == some (.fault (.illegal 0#16))) ∧
    (Runs (runCommand 0x5041#16 (blank (small 2) 29)) fun t => t.reply == some (.fault (.fbOob 32))) ∧
    (Runs (runCommand 0x3200#16 (blank (small 2) 29)) fun t => t.reply == some (.fault (.cursorRange 2 0))) ∧
    (Runs (runCommand 0x50FF#16 (fresh (small 2))) fun t => t.reply == some (.fault (.notInitPrchr 255))) ∧
    (Runs (runCommand 0x6000#16 (fresh (small 2))) fun t => t.reply == some (.fault .notInitFlush)) ∧
    Runs (exec (.init .external) (blank (small 2) 29)) fun t => t.reply == some .ok || t.reply == some .fail :=
  ⟨small_inv (by decide), runs_of (by decide +kernel), runs_of (by decide +kernel), runs_of (by decide +kernel),
    runs_of (by decide +kernel), runs_of (by decide +kernel), runs_of (by decide +kernel)⟩

theorem test_witness_FaultChangesOnlyItsBit :
    Runs (runCommand 0x6000#16 (fresh tc)) fun t => t.reply == some (.fault .notInitFlush) :=
  runs_of (by decide +kernel)

theorem test_witness_FaultBitsAreSticky :
    (Runs (runCommand 0x0000#16 { fresh tc with faults := 0b1000#4 }) fun t => t.faults == 0b1001#4) ∧
    (Runs (runCommand 0x40FF#16 { fresh tc with faults := 0b1000#4 }) fun t =>
      t.faults == 0b1000#4 && !t.answeredFault) ∧
    Runs (step { fresh tc with faults := 0b1000#4, host := [.reset] }) fun t => t.faults == 0#4 :=
  ⟨runs_of (by decide +kernel), runs_of (by decide +kernel), runs_of (by decide +kernel)⟩

theorem test_witness_FaultBitsNeverChangeACommand :
    Runs (exec (.prchr 65) { blank (small 2) 0 with faults := 0b1111#4 }) fun t => t.reply == some .ok :=
  runs_of (by decide +kernel)

theorem test_witness_ResultsAndTheirCodes :
    (Runs (runCommand 0x40FF#16 (fresh tc)) fun t => t.reply == some .ok) ∧
    (Runs (runCommand 0x3000#16 { fresh tc with acks := [false] }) fun t => t.reply == some .fail) ∧
    Runs (runCommand 0x3010#16 (fresh tc)) fun t => t.reply == some (.fault (.cursorRange 0 16)) :=
  ⟨runs_of (by decide +kernel), runs_of (by decide +kernel), runs_of (by decide +kernel)⟩

/-- Every command completes on the small panel. -/
theorem test_witness_WriteCountsPerCommand : (blank (small 2) 0).Inv ∧
    (tc.w = 128 ∧ tc.pages = 8 ∧ tc.gw = 6 ∧ tc.charColumns = 16 ∧ tc.initSteps = defaultInitSteps) ∧
    (Runs (exec (.init .internal) (blank (small 2) 0)) fun t => !t.answeredFault && t.log.length == 49) ∧
    (Runs (exec .clear (blank (small 2) 0)) fun t => !t.answeredFault && t.log.length == 25) ∧
    (Runs (exec (.setcur 1 1) (blank (small 2) 0)) fun t => !t.answeredFault && t.log.length == 3) ∧
    (Runs (exec (.wrchr 126) (blank (small 2) 0)) fun t => !t.answeredFault && t.log.length == 2) ∧
    (Runs (exec (.wrchr 127) (blank (small 2) 0)) fun t => !t.answeredFault && t.log.length == 0) ∧
    (Runs (exec (.prchr 65) (blank (small 2) 0)) fun t => !t.answeredFault && t.log.length == 0) ∧
    Runs (exec .flush (blank (small 2) 0)) fun t => !t.answeredFault && t.log.length == 38 :=
  ⟨small_inv (by decide), ⟨rfl, rfl, rfl, rfl, rfl⟩, runs_of (by decide +kernel), runs_of (by decide +kernel), runs_of (by decide +kernel),
    runs_of (by decide +kernel), runs_of (by decide +kernel), runs_of (by decide +kernel),
    runs_of (by decide +kernel)⟩

theorem test_witness_StepKeepsTheInvariant : (blank (small 2) 30).Inv ∧
    Runs (step { blank (small 2) 30 with host := [.command 0x5041#16] }) fun t => t.cur == 19#11 :=
  ⟨small_inv (by decide), runs_of (by decide +kernel)⟩

theorem test_witness_EveryCommandIsAnswered : (blank (small 2) 32).Inv ∧
    ∀ w rest, (blank (small 2) 32).host ≠ .overlap w :: rest :=
  ⟨small_inv (by decide), fun _ _ h => by cases h⟩

theorem test_witness_SessionBeginsWithInitAndEndsWithReset :
    (Runs (runCommand 0x1000#16 (fresh (small 2))) fun t => t.inited) ∧
    Runs (step { blank (small 2) 0 with host := [.reset] }) fun t => !t.inited :=
  ⟨runs_of (by decide +kernel), runs_of (by decide +kernel)⟩

theorem test_witness_OnlyInitWritesTheVoltageSource :
    (Runs (runCommand 0x1001#16 (fresh (small 2))) fun t => t.vsrc == .external) ∧
    Runs (runCommand 0x2000#16 { blank (small 2) 0 with vsrc := .external }) fun t => t.vsrc == .external :=
  ⟨runs_of (by decide +kernel), runs_of (by decide +kernel)⟩

theorem test_witness_GlyphRomNeverChanges :
    Runs (step { blank (small 2) 0 with host := [.command 0x6000#16] }) fun t => t.rom.length == 190 :=
  runs_of (by decide +kernel)

theorem test_witness_CursorMovesForwardExceptAcrossAScroll : (blank (small 2) 30).Inv ∧
    (Runs (runCommand 0x5041#16 (blank (small 2) 30)) fun t => t.cur == 19#11) ∧
    (Runs (runCommand 0x500A#16 (blank (small 2) 20)) fun t => t.cur == 16#11) ∧
    (blank { small 2 with newlineMode := .scroll } 17).Inv ∧ (small 2).len / (small 2).rowb ≤ 20 / (small 2).rowb + 1 ∧
    (Runs (runCommand 0x500A#16 (blank { small 2 with newlineMode := .scroll } 17)) fun t => t.cur == 16#11) ∧
    (Runs (runCommand 0x6000#16 (blank (small 2) 20)) fun t => t.cur == 20#11) ∧
    Runs (runCommand 0x1000#16 (blank (small 2) 20)) fun t => t.cur == 0#11 :=
  ⟨small_inv (by decide), runs_of (by decide +kernel), runs_of (by decide +kernel),
    blank_inv (by decide +kernel) (by decide +kernel) (by decide), by decide, runs_of (by decide +kernel), runs_of (by decide +kernel),
    runs_of (by decide +kernel)⟩

theorem test_witness_TestLayoutKeepsTheCursorOnTheGrid : (blank tc 1022).Inv ∧ TestLayout tc ∧
    OnGrid (blank tc 1022).cur.toNat ∧ Runs (step ((blank tc 1015).present 0x5041#16)) fun t => t.cur == 1022#11 :=
  ⟨tc_inv (by decide), by unfold TestLayout; decide, ⟨7, 18, by decide⟩, runs_of (by decide +kernel)⟩

end Sys2Proof.Tests
end

section
/-! 00_scope.md R8: a configuration outside the spec is refused. -/

namespace Sys2Proof.Machine

/-- R8's constraints stand among what a state must meet to be served at all, `rowb` written out as R7 derives it. -/
theorem constraints_of_configured {s : State} (h : s.configured = true) :
    1 ≤ s.cfg.w ∧ 1 ≤ s.cfg.pages ∧ 1 ≤ s.cfg.gw ∧ s.cfg.len = s.cfg.w * s.cfg.pages ∧
      95 ≤ s.cfg.glyphCount ∧ s.cfg.glyphBase + s.cfg.glyphCount ≤ 256 ∧ s.cfg.nlCode < s.cfg.glyphBase ∧
      s.cfg.colStride * (s.cfg.charColumns - 1) ≤ s.cfg.w - 1 ∧ s.cfg.w * s.cfg.glyphPages ≤ s.cfg.len := by
  obtain ⟨⟨hconstraints, -, -⟩, -, -⟩ := (configured_iff s).mp h
  obtain ⟨hw, hpages, hgw, hcount, hcodes, hnl, hcols, hrow⟩ := (constraints_iff s.cfg).mp hconstraints
  exact ⟨hw, hpages, hgw, rfl, hcount, hcodes, hnl, hcols, hrow⟩

/-- The gate of `step` closes before the host's event is looked at. -/
theorem step_of_not_configured {s : State} (h : ¬ s.configured = true) : step s = .refused .configuration :=
  if_neg h

/-- Settles O13: a state that `step` serves meets every constraint of R8, so one that breaks a constraint is refused
before its host's event is read. -/
theorem configurationOutsideTheSpecIsRefused : Obligations.ConfigurationOutsideTheSpecIsRefused := by
  intro s hbroken
  exact step_of_not_configured fun hconfigured => hbroken (constraints_of_configured hconfigured)

end Sys2Proof.Machine
end

section
/-! 10_state.md R17 to R23: what a presented word, a step and a hardware reset do to `FAIL`, `FAULT`, `INITED` and the glyph
ROM. -/

namespace Sys2Proof.Machine

/-! ### A presented word -/

/-- A presented word is answered in one of two ways: with a fault, or with the aggregate of the bus writes it logged; and
only the fault touches `FAULT`. -/
theorem runCommand_answer {w : Word} {s t : State} (h : runCommand w s = .next t) :
    (∃ info, t = s.withFault info) ∨
      ∃ as, t.log = s.log ++ s.answered 0 as ∧ t.fail = s.anyNack as ∧
        t.reply = some (if t.fail then .fail else .ok) ∧ t.faults = s.faults := by
  rcases runCommand_cases h with hfault | ⟨as, rfl⟩ | ⟨m, n, rfl⟩ | ⟨v, as, bs, -, rfl⟩
  · exact .inl hfault
  · exact .inr ⟨as, rfl, rfl, rfl, rfl⟩
  · exact .inr ⟨[], (List.append_nil _).symm, rfl, rfl, rfl⟩
  · exact .inr ⟨as ++ bs, init_log s v as bs _, rfl, rfl, rfl⟩

/-- No presented word writes the glyph ROM or the parameters. -/
theorem runCommand_rom_cfg {w : Word} {s t : State} (h : runCommand w s = .next t) : t.rom = s.rom ∧ t.cfg = s.cfg := by
  rcases runCommand_cases h with ⟨_, rfl⟩ | ⟨_, rfl⟩ | ⟨_, _, rfl⟩ | ⟨_, _, _, -, rfl⟩ <;> exact ⟨rfl, rfl⟩

@[simp] theorem withFault_answeredFault (s : State) (info : FaultInfo) : (s.withFault info).answeredFault = true := rfl

/-- A command that completed, with either result, answered no fault. -/
theorem answeredFault_of_completed {t : State} (h : t.reply = some (if t.fail then .fail else .ok)) :
    t.answeredFault = false := by
  unfold State.answeredFault
  rw [h]
  cases t.fail <;> rfl

/-- The aggregate of the negated answers says that one of the logged events was not acknowledged. -/
theorem anyNack_iff_event (s : State) (as : List Action) :
    s.anyNack as = true ↔ ∃ e ∈ s.answered 0 as, e.ack = some false := by
  simp only [anyNack_eq, List.any_eq_true, beq_iff_eq]

/-- Settles O36: a word that does not fault logs its emission with the answers, of which `FAIL` is the aggregate. -/
theorem failMeansAMissingAcknowledgement : Obligations.FailMeansAMissingAcknowledgement := by
  intro s t w h
  rcases runCommand_answer h with ⟨info, rfl⟩ | ⟨as, hlog, hfail, hreply, -⟩
  · exact ⟨fun hno => by simp at hno, fun _ => rfl⟩
  · refine ⟨fun _ => ⟨s.answered 0 as, hlog, ?_, hreply⟩, fun hfault => ?_⟩
    · rw [hfail]; exact anyNack_iff_event s as
    · simp [answeredFault_of_completed hreply] at hfault

/-- A presented word sets bits of `FAULT` and clears none. -/
theorem runCommand_keeps_faults {w : Word} {s t : State} (h : runCommand w s = .next t) {k : Nat}
    (hk : s.faults.getLsbD k = true) : t.faults.getLsbD k = true := by
  rcases runCommand_answer h with ⟨info, rfl⟩ | ⟨-, -, -, -, hfaults⟩
  · simp [hk]
  · rw [hfaults, hk]

/-- A word that decodes runs its command. -/
theorem runCommand_of_decode {w : Word} {i : Instr} (hw : decode w = .ok i) (s : State) :
    runCommand w s = exec i s := by
  rw [runCommand, hw]

/-- INIT begins a session, whatever was answered to it (41_init.md R56). -/
theorem execInit_inited {v : VSource} {s t : State} (h : execInit v s = .next t) : t.inited = true := by
  obtain ⟨as, bs, rfl⟩ := execInit_next h
  rfl

/-- A presented word that is not an INIT leaves `INITED`. -/
theorem runCommand_inited_of_not_init {w : Word} {s t : State} (h : runCommand w s = .next t)
    (hw : ∀ v, decode w ≠ .ok (.init v)) : t.inited = s.inited := by
  rcases runCommand_cases h with ⟨_, rfl⟩ | ⟨_, rfl⟩ | ⟨_, _, rfl⟩ | ⟨v, _, _, hinit, -⟩
  · rfl
  · rfl
  · rfl
  · exact absurd hinit (hw v)

/-- After a presented word a session is open exactly when it was or the word is an INIT. -/
theorem runCommand_inited_iff {w : Word} {s t : State} (h : runCommand w s = .next t) :
    t.inited = true ↔ s.inited = true ∨ ∃ v, decode w = .ok (.init v) := by
  by_cases hw : ∃ v, decode w = .ok (.init v)
  · obtain ⟨v, hv⟩ := hw
    rw [runCommand_of_decode hv] at h
    exact ⟨fun _ => .inr ⟨v, hv⟩, fun _ => execInit_inited h⟩
  · rw [runCommand_inited_of_not_init h (not_exists.mp hw)]
    exact (or_iff_left hw).symm

/-! ### A step and a hardware reset -/

/-- A configured TFC answers a hardware reset. -/
theorem step_of_reset {s : State} {rest : List HostEvent} (hc : s.configured = true) (hh : s.host = .reset :: rest) :
    step s = .next (s.setHost rest).hardReset := by
  simp [step, serveConfigured, hc, serve, hh]

/-- A step other than a reset keeps an open session and every `FAULT` bit that is set. -/
theorem step_reset_or_keeps {s t : State} (h : step s = .next t) :
    (∃ rest, s.host = .reset :: rest) ∨
      (s.inited = true → t.inited = true) ∧ ∀ k, s.faults.getLsbD k = true → t.faults.getLsbD k = true := by
  obtain ⟨-, ⟨-, rfl⟩ | ⟨w, rest, -, hrun⟩ | ⟨rest, hhost, -⟩⟩ := step_next h
  · exact .inr ⟨id, fun _ => id⟩
  · exact .inr ⟨fun hi => (runCommand_inited_iff hrun).mpr (.inl hi), fun k hk => runCommand_keeps_faults hrun hk⟩
  · exact .inl ⟨rest, hhost⟩

/-- No step writes the glyph ROM or the parameters. -/
theorem step_rom_cfg {s t : State} (h : step s = .next t) : t.rom = s.rom ∧ t.cfg = s.cfg := by
  obtain ⟨-, ⟨-, rfl⟩ | ⟨w, rest, -, hrun⟩ | ⟨rest, -, rfl⟩⟩ := step_next h
  · exact ⟨rfl, rfl⟩
  · obtain ⟨hrom, hcfg⟩ := runCommand_rom_cfg hrun
    exact ⟨hrom, hcfg⟩
  · exact ⟨rfl, rfl⟩

/-- R21: the kinds number the bits of `FAULT` from 0 on. -/
theorem flag_getLsbD (k : Nat) :
    (FaultKind.flag .illegal).getLsbD k = decide (k = 0) ∧ (FaultKind.flag .notInit).getLsbD k = decide (k = 1) ∧
      (FaultKind.flag .cursorRange).getLsbD k = decide (k = 2) ∧
      (FaultKind.flag .fbOob).getLsbD k = decide (k = 3) := by
  match k with
  | 0 | 1 | 2 | 3 => decide
  | k + 4 => simp [FaultKind.flag, BitVec.getLsbD_of_ge]

/-- Settles O41: a fault adds its bit to `FAULT`, any other answer leaves `FAULT`, and hardware reset is the step that
clears it. -/
theorem faultBitsAreSticky : Obligations.FaultBitsAreSticky := by
  refine ⟨flag_getLsbD, fun s t w h => ⟨fun k => runCommand_keeps_faults h, ?_⟩, fun s t rest hhost h => ?_⟩
  · rcases runCommand_answer h with ⟨info, rfl⟩ | ⟨-, -, -, hreply, hfaults⟩
    · refine ⟨fun info' hreply => ?_, fun hno => by simp at hno⟩
      cases hreply
      rfl
    · refine ⟨fun info hinfo => ?_, fun _ => hfaults⟩
      have hno := answeredFault_of_completed hreply
      simp [State.answeredFault, hinfo, Reply.isFault] at hno
  · have hreset := step_of_reset (step_next h).1 hhost
    rw [h] at hreset
    cases hreset
    rfl

/-- Settles O49: only INIT opens a session, and a step that is no reset keeps it open. -/
theorem sessionBeginsWithInitAndEndsWithReset : Obligations.SessionBeginsWithInitAndEndsWithReset := by
  refine ⟨fun s t w => runCommand_inited_iff, fun s t h hbefore hafter => ?_⟩
  rcases step_reset_or_keeps h with hreset | ⟨hkeeps, -⟩
  · exact hreset
  · simp [hkeeps hbefore] at hafter

/-- PRCHR faults while there is no session (43_buffered_print.md R68). -/
theorem exec_prchr_before_init {s : State} (hi : s.inited = false) (ch : Nat) :
    exec (.prchr ch) s = .next (s.withFault (.notInitPrchr ch)) := if_pos hi

/-- FLUSH faults while there is no session (44_flush.md R80). -/
theorem exec_flush_before_init {s : State} (hi : s.inited = false) :
    exec .flush s = .next (s.withFault .notInitFlush) := if_pos hi

/-- A NOT_INIT fault in a state whose `FAULT` is clear sets bit 1 alone. -/
theorem withFault_notInit {s : State} {info : FaultInfo} (hs : s.faults = 0#4) (hk : info.kind = .notInit) :
    s.withFault info = { s with faults := 0b0010#4, reply := some (.fault info) } := by
  rw [State.withFault, hs, hk]
  rfl

/-- Settles O14: the reset values are those of `State.resetWith`, and a step that clears `INITED` or a `FAULT` bit cannot
be one of those that keep them. -/
theorem hardwareResetLeavesTheResetValues : Obligations.HardwareResetLeavesTheResetValues := by
  refine ⟨fun c rom => ?_, fun s rest hc hhost => ?_, fun s t h hcleared => ?_⟩
  · refine ⟨fun _ => rfl, rfl, rfl, rfl, rfl, rfl, rfl, rfl, fun ch => ?_, ?_⟩
    · rw [exec_prchr_before_init rfl, withFault_notInit rfl rfl]
    · rw [exec_flush_before_init rfl, withFault_notInit rfl rfl]
  · exact ⟨_, step_of_reset hc hhost, fun _ => rfl, rfl, rfl, rfl, rfl, rfl, rfl, rfl, rfl, rfl⟩
  · rcases step_reset_or_keeps h with hreset | ⟨hsession, hbits⟩
    · exact hreset
    · rcases hcleared with ⟨hbefore, hafter⟩ | ⟨k, hbefore, hafter⟩
      · simp [hsession hbefore] at hafter
      · simp [hbits k hbefore] at hafter

/-- R22: the ROM of a configured state begins with `GW` zero bytes, its space glyph. -/
theorem rom_space_of_configured {s : State} (h : s.configured = true) {i : Nat} (hi : i < s.cfg.gw) :
    s.rom[i]? = some 0#8 := by
  obtain ⟨-, -, -, -, hcount, -⟩ := constraints_of_configured h
  obtain ⟨hglyph, -⟩ := glyph_of_configured h (k := 0) (by omega)
  have hspace : (s.rom.drop (0 * s.cfg.gw)).take s.cfg.gw = List.replicate s.cfg.gw 0#8 :=
    Except.ok.inj (hglyph.symm.trans (space_of_configured h))
  have hread := glyph_getElem? s 0 i hi
  rw [hspace, List.getElem?_replicate_of_lt hi, Nat.zero_mul, Nat.zero_add] at hread
  exact hread.symm

/-- Settles O51: a state that steps on is configured, so its ROM meets R22, and no step writes it. -/
theorem glyphRomNeverChanges : Obligations.GlyphRomNeverChanges := by
  intro s t h
  obtain ⟨hrom, hcfg⟩ := step_rom_cfg h
  obtain ⟨hconfigured, -⟩ := step_next h
  obtain ⟨-, hlength, -⟩ := (configured_iff s).mp hconfigured
  exact ⟨hrom, hcfg, hlength, fun _ => rom_space_of_configured hconfigured⟩

end Sys2Proof.Machine
end

section
/-! 10_state.md R24: the two words in which the host reads the status and the cursor. -/

namespace Sys2Proof.Machine

theorem vsrcBit_getLsbD_zero (v : VSource) : (vsrcBit v).getLsbD 0 = decide (v = .external) := by
  cases v <;> rfl

/-- The STATUS word's fields from bit 0 upward (R24); past its four bits `FAULT` reads as 0. -/
theorem statusWord_getLsbD (s : State) (k : Nat) : s.statusWord.getLsbD k =
    match k with
    | 0 => s.fail
    | 1 => s.inited
    | 2 => decide (s.vsrc = .external)
    | 3 => false
    | k + 4 => s.faults.getLsbD k := by
  change BitVec.getLsbD (w := 8 + 4 + 1 + 1 + 1 + 1)
    (0#8 ++ s.faults ++ 0#1 ++ vsrcBit s.vsrc ++ BitVec.ofBool s.inited ++ BitVec.ofBool s.fail) k = _
  simp only [BitVec.getLsbD_append]
  match k with
  | 0 => simp
  | 1 => simp
  | 2 => simpa using vsrcBit_getLsbD_zero s.vsrc
  | 3 => simp
  | k + 4 => simpa using s.faults.lt_of_getLsbD

/-- The CURSOR word reads as `CUR`; past its eleven bits `CUR` reads as 0 (R24). -/
theorem cursorWord_getLsbD (s : State) (k : Nat) : s.cursorWord.getLsbD k = s.cur.getLsbD k := by
  change BitVec.getLsbD (w := 5 + 11) (0#5 ++ s.cur) k = _
  rw [BitVec.getLsbD_append]
  split
  · rfl
  · rw [BitVec.getLsbD_zero, BitVec.getLsbD_of_ge _ _ (by omega)]

/-- Settles O44: each bit is read off its word's fields. -/
theorem viewsShowTheRegisters : Obligations.ViewsShowTheRegisters := by
  intro s
  refine ⟨statusWord_getLsbD s 0, statusWord_getLsbD s 1, ?_, statusWord_getLsbD s 3, fun k _ => ?_, fun k hk => ?_,
    fun k _ => cursorWord_getLsbD s k, fun k hk => ?_⟩
  · rw [statusWord_getLsbD]
    exact decide_eq_true_iff
  · rw [Nat.add_comm]
    exact statusWord_getLsbD s (k + 4)
  · obtain ⟨j, rfl⟩ := Nat.exists_eq_add_of_le' hk
    exact (statusWord_getLsbD s (j + 8)).trans (BitVec.getLsbD_of_ge _ _ (by omega))
  · rw [cursorWord_getLsbD, BitVec.getLsbD_of_ge _ _ hk]

end Sys2Proof.Machine
end

section
/-! 30_encoding.md R47 and R49: the decoder as a match and mask table, and what presenting an illegal word does. -/

namespace Sys2Proof

/-! ### The match and mask table -/

/-- A mask that keeps the bits from `k` up compares the opcode and asks for a zero field between bit `k` and the opcode. -/
theorem mask_eq_iff_fields (w : Word) {op k : Nat} (hop : op < 16) (hk : k ≤ 12) :
    w &&& (BitVec.allOnes 16 <<< k) = BitVec.ofNat 16 (op * 2 ^ 12) ↔ bits w 15 12 = op ∧ bits w 11 k = 0 := by
  have hpow : 2 ^ k * 2 ^ (12 - k) = 2 ^ 12 := pow_mul_pow_sub 2 hk
  have hwidth : 2 ^ (16 - k) = 2 ^ 4 * 2 ^ (12 - k) := by
    rw [← pow_add, show 4 + (12 - k) = 16 - k by omega]
  have hpattern : op * 2 ^ 12 = op * 2 ^ (12 - k) * 2 ^ k := by
    rw [← hpow, Nat.mul_assoc, Nat.mul_comm (2 ^ (12 - k))]
  have hopcode : bits w 15 12 = w.toNat / 2 ^ k / 2 ^ (12 - k) := by
    rw [Nat.div_div_eq_div_mul, hpow]
    exact Nat.mod_eq_of_lt (Nat.div_lt_of_lt_mul w.isLt)
  have hv : op * 2 ^ (12 - k) < 2 ^ (16 - k) := hwidth ▸ Nat.mul_lt_mul_of_pos_right hop (Nat.two_pow_pos _)
  calc w &&& (BitVec.allOnes 16 <<< k) = BitVec.ofNat 16 (op * 2 ^ 12)
      ↔ w.toNat / 2 ^ k = op * 2 ^ (12 - k) := by rw [hpattern, and_high_eq_iff w _ (by omega) hv]
    _ ↔ w.toNat / 2 ^ k / 2 ^ (12 - k) = op ∧ w.toNat / 2 ^ k % 2 ^ (12 - k) = 0 := by
        rw [Nat.div_mod_unique (Nat.two_pow_pos _), Nat.zero_add, Nat.mul_comm op]
        exact ⟨fun h => ⟨h.symm, Nat.two_pow_pos _⟩, fun h => h.1.symm⟩
    _ ↔ bits w 15 12 = op ∧ bits w 11 k = 0 := by rw [hopcode]; rfl

/-- INIT's operand is the word's bit 0 (R48). -/
theorem ofBit_bits_zero (w : Word) :
    VSource.ofBit (bits w 0 0) = if w.getLsbD 0 then .external else .internal := by
  rw [BitVec.getLsbD, Nat.testBit_zero]
  rcases Nat.mod_two_eq_zero_or_one w.toNat with h | h <;> simp [VSource.ofBit, bits, h]

/-- A row of the table that accepts a word has the word's opcode in its pattern: every mask covers the opcode. -/
theorem opcode_of_accepts {r : OpcodeRow} {w : Word} (hr : r ∈ opcodeTable) (h : r.accepts w = true) :
    r.pattern &&& 0xF000#16 = w &&& 0xF000#16 := by
  have hmask : ∀ r ∈ opcodeTable, r.mask &&& 0xF000#16 = 0xF000#16 := by decide
  rw [← beq_iff_eq.mp h, BitVec.and_assoc, hmask r hr]

/-- No two rows of the table share an opcode. -/
theorem opcodeTable_opcode_injective :
    ∀ r ∈ opcodeTable, ∀ r' ∈ opcodeTable, r.pattern &&& 0xF000#16 = r'.pattern &&& 0xF000#16 → r = r' := by
  decide

/-- Settles O3: each mask keeps the opcode and the row's must-be-zero field (SETCUR's is empty), by which `decode` chooses;
two rows that accept one word share its opcode. -/
theorem decodeFollowsMaskTable : Obligations.DecodeFollowsMaskTable := by
  intro w
  have hrow : bits w 11 8 = (w.extractLsb' 8 4).toNat := bits_eq_extract w 11 8
  have hlow : bits w 7 0 = (w.extractLsb' 0 8).toNat := bits_eq_extract w 7 0
  have hempty : bits w 11 12 = 0 := Nat.mod_one _
  rw [← ofBit_bits_zero, ← hrow, ← hlow]
  refine ⟨?init, ?clear, ?setcur, ?wrchr, ?prchr, ?flush, fun r hr r' hr' h h' => ?unique⟩
  case init => exact (mask_eq_iff_fields w (op := 1) (k := 1) (by decide) (by decide)).trans (by simp [decode_ok_iff])
  case clear => exact (mask_eq_iff_fields w (op := 2) (k := 0) (by decide) (by decide)).trans (decode_ok_iff w .clear).symm
  case setcur =>
    exact (mask_eq_iff_fields w (op := 3) (k := 12) (by decide) (by decide)).trans (by simp [decode_ok_iff, hempty])
  case wrchr => exact (mask_eq_iff_fields w (op := 4) (k := 8) (by decide) (by decide)).trans (by simp [decode_ok_iff])
  case prchr => exact (mask_eq_iff_fields w (op := 5) (k := 8) (by decide) (by decide)).trans (by simp [decode_ok_iff])
  case flush => exact (mask_eq_iff_fields w (op := 6) (k := 0) (by decide) (by decide)).trans (decode_ok_iff w .flush).symm
  case unique =>
    exact opcodeTable_opcode_injective r hr r' hr' ((opcode_of_accepts hr h).trans (opcode_of_accepts hr' h').symm)

/-! ### Illegal words -/

/-- A field is not zero as a number exactly when it is not zero as a slice of the word. -/
theorem bits_ne_zero_iff (w : Word) (hi lo : Nat) :
    bits w hi lo ≠ 0 ↔ w.extractLsb' lo (hi + 1 - lo) ≠ 0#(hi + 1 - lo) := by
  rw [bits_eq_extract]
  exact BitVec.toNat_ne_iff_ne (y := 0#(hi + 1 - lo))

/-- A word that is not illegal is a command. -/
theorem decode_ok_of_not_illegal {w : Word} (h : ¬ ∃ r, decode w = .illegal r) : ∃ i, decode w = .ok i := by
  cases hw : decode w with
  | ok i => exact ⟨i, rfl⟩
  | illegal r => exact absurd ⟨r, hw⟩ h

namespace Machine

/-- A configured TFC serves the word the host presents, taken off the host's list. -/
theorem step_of_command {s : State} {w : Word} {rest : List HostEvent} (hc : s.configured = true)
    (hh : s.host = .command w :: rest) : step s = runCommand w (s.setHost rest) := by
  simp [step, serveConfigured, hc, serve, hh]

/-- An illegal word raises ILLEGAL with the word as its information (R85, R88). -/
theorem runCommand_of_illegal {w : Word} {r : IllegalReason} (hw : decode w = .illegal r) (s : State) :
    runCommand w s = .next (s.withFault (.illegal w)) := by
  rw [runCommand, hw]
  rfl

/-- Settles O5: R49's cases are those in which `decode` rejects the word, and a rejected word does nothing but fault. -/
theorem illegalWordFaultsAndChangesNothingElse : Obligations.IllegalWordFaultsAndChangesNothingElse := by
  intro w op illegal
  have hillegal : (∃ r, decode w = .illegal r) ↔ illegal := by
    rw [decode_illegal_iff, bits_ne_zero_iff, bits_ne_zero_iff, bits_ne_zero_iff, bits_eq_extract]
  refine ⟨fun h s rest hc hh => ?_, fun h => decode_ok_of_not_illegal (mt hillegal.mp h)⟩
  obtain ⟨r, hr⟩ := hillegal.mpr h
  rw [step_of_command hc hh, runCommand_of_illegal hr]
  rfl

end Machine
end Sys2Proof
end

section
/-! 41_init.md R54 to R59: what INIT emits and leaves behind, and the default configuration sequence. -/

namespace Sys2Proof.Machine

/-! ### INIT's operations in another order -/

/-- Setting `VSRC` changes neither the answers to come nor what is emitted. -/
theorem emitAll_setVsrc (s : State) (v : VSource) (as : List Action) :
    (s.setVsrc v).emitAll as = (s.emitAll as).setVsrc v := by
  have h : (s.setVsrc v).answered 0 as = s.answered 0 as :=
    answered_congr (setVsrc_acks s v) (setVsrc_draws s v) 0 as
  simp only [State.emitAll, h]
  rfl

/-- Beginning a session changes neither the answers to come nor what is emitted. -/
theorem emitAll_openSession (s : State) (as : List Action) :
    s.openSession.emitAll as = (s.emitAll as).openSession := by
  have h : s.openSession.answered 0 as = s.answered 0 as :=
    answered_congr (openSession_acks s) (openSession_draws s) 0 as
  simp only [State.emitAll, h]
  rfl

/-- INIT ends as if it had made all its writes first, those of `INIT_SEQ` and those of its CLEAR (R55), and then set the
mode and begun the session. -/
theorem init_finish_eq_afterWrites (s : State) (v : VSource) (as bs : List Action) :
    ((((s.setVsrc v).emitAll as).openSession).emitAll bs).finish (s.anyNack (as ++ bs)) =
      { s.afterWrites (s.answered 0 (as ++ bs)) with
        vsrc := v, fb := s.openSession.fb, cur := 0#11, inited := true } := by
  calc ((((s.setVsrc v).emitAll as).openSession).emitAll bs).finish (s.anyNack (as ++ bs))
      = ((((s.emitAll as).emitAll bs).setVsrc v).openSession).finish (s.anyNack (as ++ bs)) := by
        rw [emitAll_setVsrc, emitAll_openSession, emitAll_setVsrc]
    _ = (((s.emitAll (as ++ bs)).finish (s.anyNack (as ++ bs))).setVsrc v).openSession := by
        rw [emitAll_append]; rfl
    _ = ((s.afterWrites (s.answered 0 (as ++ bs))).setVsrc v).openSession := by rw [finish_emitAll]

/-- What INIT does in a configured state, whatever else the state holds. -/
theorem exec_init_of_configured {s : State} (h : s.configured = true) (v : VSource) :
    exec (.init v) s = .next
      { s.afterWrites (s.answered 0 (initSeq s.cfg v ++ clearActions s.cfg (List.replicate s.cfg.gw 0#8))) with
        vsrc := v, fb := s.openSession.fb, cur := 0#11, inited := true } := by
  simp only [exec, execInit, space_of_configured h, orStop_ok, anyNack_init, complete, init_finish_eq_afterWrites]

/-- R56: a new session's framebuffer is 0 at each of its addresses, whatever it held. -/
theorem openSession_read (s : State) (a : Nat) :
    Memory.read s.openSession.fb a = if a < s.cfg.len then some 0#8 else s.fb.read a := by
  rw [openSession_fb, Memory.read_writeBlock, List.length_replicate]
  by_cases ha : a < s.cfg.len <;> simp [ha]

/-- Settles O16: INIT ends after the writes of its sequence and of CLEAR's body, the mode set and a session begun. -/
theorem initFollowsItsRule : Obligations.InitFollowsItsRule := by
  refine ⟨by decide, by decide, fun s v h => ?_⟩
  exact ⟨_, _, s.openSession.fb, clearActions_isClearBody s.cfg, answers_answered s _, openSession_read s,
    exec_init_of_configured h v⟩

/-- Settles O18: R59's steps joined in R58's order, with the mode's value in each of the three mode-dependent steps. -/
theorem defaultInitSequenceIsTheTable : Obligations.DefaultInitSequenceIsTheTable := by
  intro c hsteps
  simp only [initSeq, hsteps]
  exact ⟨rfl, rfl⟩

end Sys2Proof.Machine
end

section
/-! 42_direct_path.md R61 to R64 and R67: which codes have a glyph, and what SETCUR, CLEAR and WRCHR emit and leave
behind. -/

namespace Sys2Proof.Machine

/-! ### The words of SETCUR and WRCHR (30_encoding.md R47, R48) -/

theorem bits_ofNat (n hi lo : Nat) :
    bits (BitVec.ofNat 16 n) hi lo = n % 2 ^ 16 / 2 ^ lo % 2 ^ (hi + 1 - lo) := by
  rw [bits, BitVec.toNat_ofNat]

theorem decode_setcur_word {row col : Nat} (hrow : row ≤ 15) (hcol : col ≤ 255) :
    decode (BitVec.ofNat 16 (0x3000 + row * 256 + col)) = .ok (.setcur row col) := by
  refine (decode_ok_iff _ _).mpr ⟨?_, ?_, ?_⟩ <;> rw [bits_ofNat] <;> omega

theorem decode_wrchr_word {ch : Nat} (hch : ch ≤ 255) :
    decode (BitVec.ofNat 16 (0x4000 + ch)) = .ok (.wrchr ch) := by
  refine (decode_ok_iff _ _).mpr ⟨?_, ?_, ?_⟩ <;> rw [bits_ofNat] <;> omega

/-! ### What the three commands do -/

/-- A command that emits `as` and then completes with its aggregate does nothing but make those writes. -/
theorem complete_emitAll (s : State) (as : List Action) :
    complete (s.anyNack as) (s.emitAll as) = .next (s.afterWrites (s.answered 0 as)) :=
  congrArg _ (finish_emitAll s as)

/-- SETCUR of a cell on the panel (R63). -/
theorem exec_setcur_of_cell {s : State} {row col : Nat} (hrow : row < s.cfg.pages) (hcol : col < s.cfg.charColumns) :
    exec (.setcur row col) s = .next (s.afterWrites (s.answered 0 (setcurActions s.cfg row col))) := by
  have hcell : ¬ (s.cfg.charRows ≤ row ∨ s.cfg.charColumns ≤ col) :=
    not_or.mpr ⟨Nat.not_le_of_lt hrow, Nat.not_le_of_lt hcol⟩
  exact (if_neg hcell).trans (complete_emitAll s _)

/-- SETCUR outside the panel's cells (R63). -/
theorem exec_setcur_out_of_range {s : State} {row col : Nat} (h : s.cfg.pages ≤ row ∨ s.cfg.charColumns ≤ col) :
    exec (.setcur row col) s = .next (s.withFault (.cursorRange row col)) := if_pos h

/-- CLEAR in a configured state sends zero bytes as its space glyph, whatever else the state holds (R64). -/
theorem exec_clear_of_configured {s : State} (h : s.configured = true) :
    exec .clear s =
      .next (s.afterWrites (s.answered 0 (clearActions s.cfg (List.replicate s.cfg.gw 0#8)))) := by
  simp only [exec, execClear, space_of_configured h, orStop_ok, complete_emitAll]

/-- The glyph of a code that has one is among the ROM's (R61). -/
theorem glyphNumber_lt {c : Config} {ch : Nat} (h : GlyphCode c ch) : glyphNumber c ch < c.glyphCount :=
  Nat.sub_lt_left_of_lt_add h.1 h.2

/-- WRCHR sends the bytes of the glyph that the code selects (R67). -/
theorem exec_wrchr_of_glyph {s : State} {ch : Nat} {g : List Byte} (hch : GlyphCode s.cfg ch)
    (hg : s.glyph (glyphNumber s.cfg ch) = .ok g) :
    exec (.wrchr ch) s = .next (s.afterWrites (s.answered 0 (g.map .data))) := by
  simp only [exec, execWrchr, (hasGlyph_iff _ _).mpr hch, if_true, hg, orStop_ok, complete_emitAll]

/-- WRCHR drops a code without a glyph (R67). -/
theorem exec_wrchr_of_no_glyph {s : State} {ch : Nat} (hch : ¬ GlyphCode s.cfg ch) :
    exec (.wrchr ch) s = .next (s.finish false) := if_neg (mt (hasGlyph_iff _ _).mp hch)

/-! ### The statements -/

/-- Settles O20: a cell on the panel makes the three writes of R62, and a cell outside it faults before any. -/
theorem setcurFollowsItsRule : Obligations.SetcurFollowsItsRule := by
  refine ⟨fun row col => decode_setcur_word, fun s row col hrow hcol => ?_, fun s row col => exec_setcur_out_of_range⟩
  exact ⟨_, answers_answered s (setcurActions s.cfg row col), exec_setcur_of_cell hrow hcol⟩

/-- Settles O21: what CLEAR emits in a configured state is R64's list by position. -/
theorem clearFollowsItsRule : Obligations.ClearFollowsItsRule := by
  refine ⟨by decide, fun s h => ?_⟩
  exact ⟨_, _, clearActions_isClearBody s.cfg, answers_answered s _, exec_clear_of_configured h⟩

/-- Settles O22: the ROM of a configured state holds the glyph of every code that has one, and WRCHR sends its bytes. -/
theorem wrchrFollowsItsRule : Obligations.WrchrFollowsItsRule := by
  refine ⟨fun ch => decode_wrchr_word, fun s ch h hch => ?_, fun s ch => exec_wrchr_of_no_glyph⟩
  obtain ⟨hglyph, hlength⟩ := glyph_of_configured h (glyphNumber_lt hch)
  exact ⟨_, _, hlength, glyph_getElem? s _, answers_answered s _, exec_wrchr_of_glyph hch hglyph⟩

/-- Settles O19: `hasGlyph` decides R61's range, which for the hardware's parameters ends at code 126. -/
theorem codesWithAGlyph : Obligations.CodesWithAGlyph := by
  refine ⟨fun c ch => ⟨hasGlyph_iff c ch, rfl⟩, fun c ch hbase hcount => ?_⟩
  rw [hasGlyph_iff, GlyphCode, hbase, hcount]
  omega

end Sys2Proof.Machine
end

section
/-! 43_buffered_print.md R68 to R76: the ways PRCHR goes, the Line Scroll and the newline in a session, and where a printed
glyph lands. -/

namespace Sys2Proof.Machine

/-! ### The ways PRCHR goes in a session (R68 steps 1 and 2) -/

theorem exec_prchr_newline {s : State} (hi : s.inited = true) :
    exec (.prchr s.cfg.nlCode) s = orStop (newline s) (complete false) := by
  simp [exec, execPrchr, hi]

theorem exec_prchr_of_glyph {s : State} {ch : Nat} (hi : s.inited = true) (hnl : ch ≠ s.cfg.nlCode)
    (hch : GlyphCode s.cfg ch) : exec (.prchr ch) s = printGlyph ch s := by
  simp [exec, execPrchr, hi, hnl, (hasGlyph_iff _ _).mpr hch]

theorem exec_prchr_of_no_glyph {s : State} {ch : Nat} (hi : s.inited = true) (hnl : ch ≠ s.cfg.nlCode)
    (hch : ¬ GlyphCode s.cfg ch) : exec (.prchr ch) s = .next (s.finish false) := by
  simp [exec, execPrchr, hi, hnl, mt (hasGlyph_iff _ _).mp hch, complete]

/-- Settles O24: PRCHR looks at `INITED` before it looks at the code. -/
theorem prchrBeforeInitFaults : Obligations.PrchrBeforeInitFaults :=
  fun _ ch hi => exec_prchr_before_init hi ch

/-- Settles O25: a code that is neither the newline nor one with a glyph only completes. -/
theorem prchrDropsCodesWithoutAGlyph : Obligations.PrchrDropsCodesWithoutAGlyph :=
  fun _ _ hi hnl hch => exec_prchr_of_no_glyph hi hnl hch

/-! ### The Line Scroll (R75, R76) -/

/-- The Line Scroll of a session, by address. -/
theorem lineScroll_of_inv {s : State} (h : s.Inv) (hi : s.inited = true) :
    ∃ m, lineScroll s = .ok ((s.setFb m).setCur (s.cfg.len - s.cfg.rowb)) ∧
      ∀ a, Memory.read m a = scrolledRead s a := by
  obtain ⟨-, -, -, -, -, -, -, hrow⟩ := inv_constraints h
  exact ⟨_, lineScroll_eq (h.full hi) hrow, read_scrolled (h.full hi) hrow⟩

theorem scrolledRead_upper {s : State} {a : Nat} (ha : a < s.cfg.len - s.cfg.rowb) :
    scrolledRead s a = s.fb.read (a + s.cfg.rowb) := if_pos (by omega)

theorem scrolledRead_bottom {s : State} {a : Nat} (hbottom : s.cfg.len - s.cfg.rowb ≤ a) (ha : a < s.cfg.len) :
    scrolledRead s a = if s.cfg.scrollFill = .zero then some 0#8 else s.fb.read a := by
  rw [scrolledRead, if_neg (by omega)]
  simp only [ha, true_and]

theorem scrolledRead_outside {s : State} {a : Nat} (ha : s.cfg.len ≤ a) : scrolledRead s a = s.fb.read a := by
  rw [scrolledRead, if_neg (by omega), if_neg (by omega)]

/-- Settles O30: a Line Scroll leaves the bytes of `scrolledRead`, which are R75's in the rows above the bottom one and
R76's in it. -/
theorem lineScrollMovesTheRowsUp : Obligations.LineScrollMovesTheRowsUp := by
  intro s h hi
  obtain ⟨m, hscroll, hread⟩ := lineScroll_of_inv h hi
  refine ⟨m, hscroll, cur_toNat h (Nat.sub_le _ _), fun a ha => ?upper, fun a hb ha hfill => ?zero,
    fun a hb ha hfill => ?keep, fun a ha => ?outside⟩
  case upper => rw [hread, scrolledRead_upper ha]
  case zero => rw [hread, scrolledRead_bottom hb ha, if_pos hfill]
  case keep => rw [hread, scrolledRead_bottom hb ha, hfill, if_neg (by decide)]
  case outside => rw [hread, scrolledRead_outside ha]

/-! ### The newline (R74) -/

/-- The newline scrolls in SCROLL mode and past the last row. -/
theorem newline_of_scrolls {s : State}
    (h : s.cfg.newlineMode = .scroll ∨ s.cfg.len / s.cfg.rowb ≤ s.cur.toNat / s.cfg.rowb + 1) :
    newline s = lineScroll s := by
  unfold newline
  split
  · next hmode => exact if_pos (h.resolve_left (by simp [hmode]))
  · rfl

/-- Otherwise it moves `CUR` to the start of the next row. -/
theorem newline_of_not_scrolls {s : State}
    (h : ¬ (s.cfg.newlineMode = .scroll ∨ s.cfg.len / s.cfg.rowb ≤ s.cur.toNat / s.cfg.rowb + 1)) :
    newline s = .ok (s.setCur ((s.cur.toNat / s.cfg.rowb + 1) * s.cfg.rowb)) := by
  obtain ⟨hmode, hrow⟩ := not_or.mp h
  unfold newline
  split
  · exact if_neg hrow
  · next hscroll => exact absurd hscroll hmode

/-- Settles O29: PRCHR of the newline code is the newline, which moves `CUR` or is the Line Scroll. -/
theorem newlineFollowsItsRule : Obligations.NewlineFollowsItsRule := by
  intro s h hi r scrolls
  rw [exec_prchr_newline hi]
  refine ⟨fun hno => ?_, fun hyes => ?_⟩
  · rw [newline_of_not_scrolls hno]
    rfl
  · obtain ⟨m, hscroll, hread⟩ := lineScroll_of_inv h hi
    rw [newline_of_scrolls hyes, hscroll]
    exact ⟨m, rfl, hread⟩

/-! ### The printed glyph (R68 steps 3 to 6) -/

/-- The ROM of a configured state holds the glyph of every code that has one (20_memory.md R30). -/
theorem glyph_of_glyphCode {s : State} {ch : Nat} (h : s.configured = true) (hch : GlyphCode s.cfg ch) :
    ∃ g, s.glyph (glyphNumber s.cfg ch) = .ok g ∧ g.length = s.cfg.gw ∧
      ∀ i, i < s.cfg.gw → g[i]? = s.rom[(ch - s.cfg.glyphBase) * s.cfg.gw + i]? := by
  obtain ⟨hglyph, hlength⟩ := glyph_of_configured h (glyphNumber_lt hch)
  exact ⟨_, hglyph, hlength, glyph_getElem? s _⟩

/-- A glyph that fits is written from `printIndex` on, over what the overflow check left, and `CUR` is put past it. -/
theorem printGlyph_of_fits {s : State} {ch : Nat} (h : s.Inv) (hi : s.inited = true) (hch : GlyphCode s.cfg ch)
    (hfit : printIndex s + s.cfg.gw ≤ s.cfg.len) :
    ∃ m, printGlyph ch s = .next (((s.setFb m).setCur (printIndex s + s.cfg.gw)).finish false) ∧
      (∀ i, i < s.cfg.gw → Memory.read m (printIndex s + i) = s.rom[(ch - s.cfg.glyphBase) * s.cfg.gw + i]?) ∧
      ∀ a, a < printIndex s ∨ printIndex s + s.cfg.gw ≤ a → Memory.read m a = checkedRead s a := by
  obtain ⟨m, hcheck, -, hread, hcur⟩ := scrollIfFull_eq h hi
  obtain ⟨g, hglyph, hlength, hbytes⟩ := glyph_of_glyphCode h.configured hch
  refine ⟨m.writeBlock (printIndex s) g, ?_, fun i hlt => ?_, fun a ha => ?_⟩
  · rw [printGlyph, hcheck, orStop_ok]
    simp only [glyphStart_checked h m hcur]
    rw [if_neg (Nat.not_lt_of_le hfit), hglyph, orStop_ok, writeFb_inside (by rwa [hlength]), orStop_ok]
    rfl
  · rw [Memory.read_writeBlock, if_pos (by omega), Nat.add_sub_cancel_left]
    exact hbytes i hlt
  · rw [Memory.read_writeBlock_outside _ _ _ _ (by rwa [hlength]), hread]

/-- The newline code has no glyph (00_scope.md R8). -/
theorem ne_nlCode_of_glyph {s : State} {ch : Nat} (h : s.Inv) (hch : GlyphCode s.cfg ch) : ch ≠ s.cfg.nlCode := by
  obtain ⟨-, -, -, -, -, hnl, -⟩ := inv_constraints h
  exact (Nat.lt_of_lt_of_le hnl hch.1).ne'

/-- PRCHR of a glyph that answered OK found room for it. -/
theorem printGlyph_fits_of_ok {s t : State} {ch : Nat} (h : s.Inv) (hi : s.inited = true) (hch : GlyphCode s.cfg ch)
    (ht : printGlyph ch s = .next t) (hok : t.reply = some .ok) : printIndex s + s.cfg.gw ≤ s.cfg.len := by
  rcases printGlyph_of_inv h hi hch with ⟨-, hfault⟩ | ⟨hfit, -⟩
  · cases ht.symm.trans hfault
    simp at hok
  · exact hfit

/-- Settles O27: `CUR` ends `GW` past the glyph's first index, which the overflow check and the column wrap give in each of
the four cases. -/
theorem prchrAdvancesTheCursor : Obligations.PrchrAdvancesTheCursor := by
  intro s t ch h hi hch ht hok
  rw [exec_prchr_of_glyph hi (ne_nlCode_of_glyph h hch) hch] at ht
  have hfit := printGlyph_fits_of_ok h hi hch ht hok
  obtain ⟨m, hprint, hglyph, hrest⟩ := printGlyph_of_fits h hi hch hfit
  cases ht.symm.trans hprint
  rw [finish_cur, setCur_cur, cur_toNat h hfit, Nat.add_sub_cancel]
  refine ⟨fun hroom hplain => ?_, fun hroom hskip => ?_, fun hfull hplain => ?_, fun hfull hskip => ?_, hglyph, hrest⟩
  · rw [printIndex, printCursor_room hroom, glyphStart_plain hplain, Nat.add_assoc]
  · rw [printIndex, printCursor_room hroom, glyphStart_skip hskip]
    omega
  · rw [printIndex, printCursor_full hfull, glyphStart_plain hplain]
  · rw [printIndex, printCursor_full hfull, glyphStart_skip hskip]

end Sys2Proof.Machine
end

section
/-! 44_flush.md R80, R81 and R83: what FLUSH emits and leaves behind, and what the reference panel of 60_exceptions.md R96
shows after it. -/

namespace Sys2Proof.Machine

/-! ### What FLUSH does (R80, R81) -/

/-- In a session FLUSH makes the window writes and one data write for each framebuffer byte, and nothing else. -/
theorem exec_flush_in_session {s : State} (h : s.Inv) (hi : s.inited = true) :
    exec .flush s =
      .next (s.afterWrites (s.answered 0 (windowActions s.cfg ++ (s.fb.map Prod.snd).map .data))) := by
  simp [exec, execFlush, hi, readFb_all (h.full hi), complete_emitAll]

/-- In a session the framebuffer's cells hold `LEN` bytes, byte `i` being what address `i` reads as (10_state.md R14). -/
theorem fb_bytes_in_session {s : State} (h : s.Inv) (hi : s.inited = true) :
    (s.fb.map Prod.snd).length = s.cfg.len ∧ ∀ i, i < s.cfg.len → s.fb.read i = (s.fb.map Prod.snd)[i]? := by
  simpa using Memory.readBlock_eq_some.mp (Memory.readBlock_of_keys (h.full hi))

/-- Settles O33: a session's framebuffer is full, so FLUSH reads all of it and ends after its writes. -/
theorem flushFollowsItsRule : Obligations.FlushFollowsItsRule := by
  refine ⟨by decide, fun s => exec_flush_before_init, fun s h hi => ?_⟩
  obtain ⟨hlength, hread⟩ := fb_bytes_in_session h hi
  exact ⟨_, _, hlength, hread, answers_answered s _, exec_flush_in_session h hi⟩

/-! ### The reference panel in the full window (60_exceptions.md R96) -/

/-- The panel's memory replaced. -/
def Panel.setGddram (p : Panel) (m : Memory) : Panel := { p with gddram := m }

/-- The panel with the full `W` by `PAGES` window and its pointers where byte `i` of a FLUSH goes, back at (0, 0) after the
last byte. -/
def Panel.atByte (c : Config) (i : Nat) (p : Panel) : Panel :=
  { p with
    colStart := 0, colEnd := c.w - 1, pageStart := 0, pageEnd := c.pages - 1
    pagePtr := i / c.w % c.pages, colPtr := i % c.w }

/-- The address in the panel's memory of page `i div W`, column `i mod W`. -/
def panelAddress (c : Config) (i : Nat) : Nat := i / c.w * 128 + i % c.w

theorem setGddram_atByte (c : Config) (p : Panel) (i : Nat) (m : Memory) :
    (p.atByte c i).setGddram m = (p.setGddram m).atByte c i := rfl

theorem pixelByte_eq_read (c : Config) (p : Panel) (i : Nat) :
    p.pixelByte (i / c.w) (i % c.w) = Memory.read p.gddram (panelAddress c i) := rfl

/-- On a panel of at most 128 columns two framebuffer bytes never share a cell. -/
theorem panelAddress_inj {c : Config} (hw : 1 ≤ c.w) (hw' : c.w ≤ 128) {i j : Nat}
    (h : panelAddress c i = panelAddress c j) : i = j := by
  have hi := Nat.mod_lt i hw
  have hj := Nat.mod_lt j hw
  unfold panelAddress at h
  have hpage : i / c.w = j / c.w := by omega
  have hcol : i % c.w = j % c.w := by omega
  rw [← Nat.div_add_mod i c.w, ← Nat.div_add_mod j c.w, hpage, hcol]

/-- A byte written in the place of framebuffer byte `i` is read there. -/
theorem read_panelAddress_write_same (c : Config) (m : Memory) (b : Byte) (i : Nat) :
    Memory.read (Memory.writeBlock m (panelAddress c i) [b]) (panelAddress c i) = some b :=
  Memory.read_writeBlock_inside m _ [b] 0 Nat.one_pos

/-- The place of another framebuffer byte is left as it was. -/
theorem read_panelAddress_write_other {c : Config} (hw : 1 ≤ c.w) (hw' : c.w ≤ 128) (m : Memory) (b : Byte)
    {i j : Nat} (hij : j ≠ i) :
    Memory.read (Memory.writeBlock m (panelAddress c i) [b]) (panelAddress c j) = Memory.read m (panelAddress c j) :=
  Memory.read_writeBlock_outside _ _ _ _ (Nat.lt_or_gt_of_ne (mt (panelAddress_inj hw hw') hij))

/-- A two-argument command that arrives whole sets its window (R96). -/
theorem panel_command_window {c : Config} {p : Panel} {n : Byte} (hn : n = 0x21#8 ∨ n = 0x22#8)
    (hr : p.received = []) (a b : Byte) :
    ((p.command c n).command c a).command c b = p.window n.toNat a.toNat b.toNat := by
  have hargs : panelArguments n = 2 := if_pos hn
  have hcommand : p.command c n = { p with received := [n] } := by simp [Panel.command, hr, hargs]
  have hfirst : ({ p with received := [n] } : Panel).command c a = { p with received := [n, a] } := by
    simp [Panel.command, hargs]
  rw [hcommand, hfirst]
  simp only [Panel.command, Panel.window, ← hr]
  split <;> rfl

@[simp] theorem panel_window_received (n a b : Nat) (p : Panel) : (p.window n a b).received = p.received := by
  unfold Panel.window
  split <;> rfl

/-- FLUSH's six command bytes set the full window and put the pointers at its start. -/
theorem panel_receive_windows {c : Config} {p : Panel} (hw : 1 ≤ c.w) (hw' : c.w ≤ 256) (hp : 1 ≤ c.pages)
    (hp' : c.pages ≤ 256) (hcol : c.setColWindow = 0x21#8) (hpage : c.setPageWindow = 0x22#8) (hr : p.received = []) :
    (windowActions c).foldl (fun q a => q.receive c a) p = p.atByte c 0 := by
  have hcolEnd : (BitVec.ofNat 8 (c.w - 1)).toNat = c.w - 1 := Nat.mod_eq_of_lt (by omega)
  have hpageEnd : (BitVec.ofNat 8 (c.pages - 1)).toNat = c.pages - 1 := Nat.mod_eq_of_lt (by omega)
  simp only [windowActions, List.foldl_cons, List.foldl_nil, Panel.receive, hcol, hpage]
  rw [panel_command_window (.inl rfl) hr, panel_command_window (.inr rfl) (by simpa using hr), hcolEnd, hpageEnd]
  simp [Panel.window, Panel.atByte]

/-- The page pointer's step at the end of a row, back to page 0 after the last one. -/
theorem next_page {r pages : Nat} (h : r < pages) :
    (if pages - 1 < r + 1 then 0 else r + 1) = (r + 1) % pages := by
  split
  · rw [show r + 1 = pages by omega, Nat.mod_self]
  · exact (Nat.mod_eq_of_lt (by omega)).symm

/-- In horizontal mode the pointers move on to the next byte's place. -/
theorem panel_advance_atByte {c : Config} {p : Panel} {i : Nat} (hw : 1 ≤ c.w) (hi : i < c.len)
    (hm : p.mode = .horizontal) : (p.atByte c i).advance = p.atByte c (i + 1) := by
  have hcol := Nat.mod_lt i hw
  have hrow : i / c.w < c.pages := Nat.div_lt_of_lt_mul hi
  have hsplit := Nat.mod_add_div i c.w
  by_cases hlast : i % c.w + 1 = c.w
  case pos =>
    obtain ⟨hdiv, hmod⟩ : (i + 1) / c.w = i / c.w + 1 ∧ (i + 1) % c.w = 0 :=
      (Nat.div_mod_unique hw).mpr ⟨by rw [Nat.mul_add_one]; omega, hw⟩
    have hend : (p.atByte c i).colEnd < (p.atByte c i).colPtr + 1 := by simp only [Panel.atByte]; omega
    rw [Panel.advance, if_pos hend]
    simp only [Panel.atByte, hm, hdiv, hmod, Nat.mod_eq_of_lt hrow, next_page hrow]
  case neg =>
    obtain ⟨hdiv, hmod⟩ : (i + 1) / c.w = i / c.w ∧ (i + 1) % c.w = i % c.w + 1 :=
      (Nat.div_mod_unique hw).mpr ⟨by omega, by omega⟩
    have hend : ¬ (p.atByte c i).colEnd < (p.atByte c i).colPtr + 1 := by simp only [Panel.atByte]; omega
    rw [Panel.advance, if_neg hend]
    simp only [Panel.atByte, hdiv, hmod]

/-- A data byte that finds the pointers inside the panel's memory is stored there (R96). -/
theorem panel_data_inside {p : Panel} (hrow : p.pagePtr < p.pages) (hcol : p.colPtr < 128) (b : Byte) :
    p.data b = (p.setGddram (Memory.writeBlock p.gddram (p.pagePtr * 128 + p.colPtr) [b])).advance :=
  if_pos ⟨hrow, hcol⟩

/-- A data byte lands in its place and the pointers move on. -/
theorem panel_data_atByte {c : Config} {p : Panel} {i : Nat} (hw : 1 ≤ c.w) (hw' : c.w ≤ 128) (hi : i < c.len)
    (hp : p.pages = c.pages) (hm : p.mode = .horizontal) (b : Byte) :
    (p.atByte c i).data b =
      (p.setGddram (Memory.writeBlock p.gddram (panelAddress c i) [b])).atByte c (i + 1) := by
  have hpagePtr : (p.atByte c i).pagePtr = i / c.w := Nat.mod_eq_of_lt (Nat.div_lt_of_lt_mul hi)
  have hrow : (p.atByte c i).pagePtr < (p.atByte c i).pages := by
    rw [hpagePtr]
    exact (Nat.div_lt_of_lt_mul hi).trans_eq hp.symm
  have hcol : (p.atByte c i).colPtr < 128 := (Nat.mod_lt i hw).trans_le hw'
  rw [panel_data_inside hrow hcol, hpagePtr, setGddram_atByte]
  exact panel_advance_atByte hw hi hm

/-- The data bytes of a FLUSH from byte `i` on land each in its place, and no other byte's place is written. -/
theorem panel_receive_bytes {c : Config} (hw : 1 ≤ c.w) (hw' : c.w ≤ 128) (bs : List Byte) {p : Panel} {i : Nat}
    (hp : p.pages = c.pages) (hm : p.mode = .horizontal) (hfit : i + bs.length ≤ c.len) :
    ∃ m, (bs.map .data).foldl (fun q a => q.receive c a) (p.atByte c i) =
        (p.setGddram m).atByte c (i + bs.length) ∧
      (∀ k, k < bs.length → Memory.read m (panelAddress c (i + k)) = bs[k]?) ∧
      ∀ j, j < i ∨ i + bs.length ≤ j →
        Memory.read m (panelAddress c j) = Memory.read p.gddram (panelAddress c j) := by
  induction bs generalizing p i with
  | nil => exact ⟨p.gddram, rfl, fun _ hk => absurd hk (Nat.not_lt_zero _), fun _ _ => rfl⟩
  | cons b bs ih =>
    rw [List.length_cons] at hfit ⊢
    obtain ⟨m, hrun, hshown, hrest⟩ :=
      ih (p := p.setGddram (Memory.writeBlock p.gddram (panelAddress c i) [b])) (i := i + 1) hp hm (by omega)
    refine ⟨m, ?_, fun k hk => ?_, fun j hj => ?_⟩
    · rw [List.map_cons, List.foldl_cons, Panel.receive, panel_data_atByte hw hw' (by omega) hp hm, hrun,
        Nat.add_right_comm, Nat.add_assoc]
      rfl
    · cases k with
      | zero => exact (hrest i (by omega)).trans (read_panelAddress_write_same c _ b i)
      | succ k =>
        rw [List.getElem?_cons_succ, ← hshown k (by omega), Nat.add_right_comm, Nat.add_assoc]
    · exact (hrest j (by omega)).trans (read_panelAddress_write_other hw hw' _ b (by omega))

/-! ### The acknowledged FLUSH (R83) -/

/-- A command whose writes leave `FAIL` clear was acknowledged throughout (10_state.md R18). -/
theorem acknowledged_of_fail_clear {s : State} {es : List Event} (h : (s.afterWrites es).fail = false) :
    ∀ e ∈ es, e.ack ≠ some false := by
  simpa [State.afterWrites] using h

/-- Settles O35: the six command bytes open the full window at (0, 0), and the `LEN` data bytes fill it once around. -/
theorem acknowledgedFlushShowsTheFramebuffer : Obligations.AcknowledgedFlushShowsTheFramebuffer := by
  intro s t es p h hi hw' hcolWindow hpageWindow hp hm hr ht hlog hfail
  obtain ⟨hw, hpages, -⟩ := inv_constraints h
  obtain ⟨-, hwFits, hpagesFit, -⟩ := inv_fits h
  obtain ⟨hlength, hread⟩ := fb_bytes_in_session h hi
  cases (exec_flush_in_session h hi).symm.trans ht
  cases List.append_cancel_left hlog
  obtain ⟨m, hrun, hshown, -⟩ := panel_receive_bytes hw hw' (s.fb.map Prod.snd) (i := 0) hp hm (by omega)
  rw [panel_run_acknowledged (acknowledged_of_fail_clear hfail), answered_actions, List.foldl_append,
    panel_receive_windows hw hwFits hpages hpagesFit hcolWindow hpageWindow hr, hrun]
  refine ⟨fun i hlt => ?_, ?_, ?_⟩
  · rw [pixelByte_eq_read]
    have hbyte := hshown i (hlt.trans_eq hlength.symm)
    rw [Nat.zero_add] at hbyte
    exact hbyte.trans (hread i hlt).symm
  · simp only [Panel.atByte, hlength, Nat.zero_add, Config.len, Nat.mul_div_cancel_left _ hw, Nat.mod_self]
  · simp only [Panel.atByte, hlength, Nat.zero_add, Config.len, Nat.mul_mod_right]

end Sys2Proof.Machine
end

section
/-! 60_exceptions.md R85 and R86: what causes each fault, and what a fault changes. -/

namespace Sys2Proof.Machine

/-! ### Completing and faulting exclude each other (30_encoding.md R46) -/

/-- A command that completed, with either result, has no fault's information in its reply. -/
theorem reply_ne_fault_of_completed {t : State} {info : FaultInfo}
    (h : t.reply = some (if t.fail then .fail else .ok)) : t.reply ≠ some (.fault info) := by
  intro hfault
  have hno := answeredFault_of_completed h
  simp [State.answeredFault, hfault, Reply.isFault] at hno

/-- A presented word that is answered with a fault did nothing but raise it (R86). -/
theorem eq_withFault_of_reply {w : Word} {s t : State} {info : FaultInfo} (h : runCommand w s = .next t)
    (hreply : t.reply = some (.fault info)) : t = s.withFault info := by
  rcases runCommand_answer h with ⟨info', rfl⟩ | ⟨-, -, -, hcompleted, -⟩
  · cases hreply
    rfl
  · exact absurd hreply (reply_ne_fault_of_completed hcompleted)

/-- Settles O40: `withFault` is R86's change. -/
theorem faultChangesOnlyItsBit : Obligations.FaultChangesOnlyItsBit :=
  fun _ _ _ _ => eq_withFault_of_reply

/-! ### From the cause to the fault (R85) -/

/-- A cause of R85's table raises its fault. -/
theorem runCommand_of_faultCause {s : State} {w : Word} {info : FaultInfo} (h : s.Inv) (hcause : FaultCause s w info) :
    runCommand w s = .next (s.withFault info) := by
  cases info with
  | illegal w' =>
    obtain ⟨rfl, r, hw⟩ := hcause
    exact runCommand_of_illegal hw s
  | notInitPrchr ch =>
    obtain ⟨hw, hi⟩ := hcause
    rw [runCommand_of_decode hw, exec_prchr_before_init hi]
  | notInitFlush =>
    obtain ⟨hw, hi⟩ := hcause
    rw [runCommand_of_decode hw, exec_flush_before_init hi]
  | cursorRange row col =>
    obtain ⟨hw, hrange⟩ := hcause
    rw [runCommand_of_decode hw, exec_setcur_out_of_range hrange]
  | fbOob p =>
    obtain ⟨ch, hw, hi, hnl, hch, rfl, hover⟩ := hcause
    rw [runCommand_of_decode hw, exec_prchr_of_glyph hi hnl hch]
    rcases printGlyph_of_inv h hi hch with ⟨-, hfault⟩ | ⟨hfit, -⟩
    · exact hfault
    · exact absurd hover (Nat.not_lt_of_le hfit)

/-! ### From the fault to the cause (R85) -/

/-- INIT, CLEAR and WRCHR have no row in R85's table: when they go on they complete. -/
theorem completed_of_never_faults {i : Instr} {s t : State}
    (hi : i = .clear ∨ (∃ v, i = .init v) ∨ ∃ ch, i = .wrchr ch) (ht : exec i s = .next t) :
    t.reply = some (if t.fail then .fail else .ok) := by
  rcases hi with rfl | ⟨v, rfl⟩ | ⟨ch, rfl⟩
  · obtain ⟨as, rfl⟩ := execClear_next ht
    rfl
  · obtain ⟨as, bs, rfl⟩ := execInit_next ht
    rfl
  · obtain ⟨as, rfl⟩ := execWrchr_next ht
    rfl

section
variable {s t : State} {w : Word} {info : FaultInfo}

/-- SETCUR faults only outside the panel's cells. -/
theorem faultCause_of_setcur {row col : Nat} (hw : decode w = .ok (.setcur row col))
    (ht : exec (.setcur row col) s = .next t) (hreply : t.reply = some (.fault info)) : FaultCause s w info := by
  by_cases hrange : s.cfg.pages ≤ row ∨ s.cfg.charColumns ≤ col
  · cases (exec_setcur_out_of_range hrange).symm.trans ht
    cases hreply
    exact ⟨hw, hrange⟩
  · obtain ⟨hrow, hcol⟩ := not_or.mp hrange
    cases (exec_setcur_of_cell (Nat.lt_of_not_le hrow) (Nat.lt_of_not_le hcol)).symm.trans ht
    exact absurd hreply (reply_ne_fault_of_completed rfl)

/-- PRCHR faults only before a session, or in one with a glyph that passes `LEN`. -/
theorem faultCause_of_prchr {ch : Nat} (h : s.Inv) (hw : decode w = .ok (.prchr ch))
    (ht : exec (.prchr ch) s = .next t) (hreply : t.reply = some (.fault info)) : FaultCause s w info := by
  rcases execPrchr_of_inv h ch with ⟨hi, hfault⟩ | ⟨hi, hnl, hch, hover, hfault⟩ | ⟨-, -, m, n, hcompletes, -, -⟩
  · cases hfault.symm.trans ht
    cases hreply
    exact ⟨hw, hi⟩
  · cases hfault.symm.trans ht
    cases hreply
    exact ⟨ch, hw, hi, hnl, hch, rfl, hover⟩
  · cases hcompletes.symm.trans ht
    exact absurd hreply (reply_ne_fault_of_completed rfl)

/-- FLUSH faults only before a session. -/
theorem faultCause_of_flush (hw : decode w = .ok .flush) (ht : exec .flush s = .next t)
    (hreply : t.reply = some (.fault info)) : FaultCause s w info := by
  rcases execFlush_next ht with ⟨hi, rfl⟩ | ⟨-, as, rfl⟩
  · cases hreply
    exact ⟨hw, hi⟩
  · exact absurd hreply (reply_ne_fault_of_completed rfl)

/-- A presented word that is answered with a fault met that fault's cause. -/
theorem faultCause_of_reply (h : s.Inv) (ht : runCommand w s = .next t) (hreply : t.reply = some (.fault info)) :
    FaultCause s w info := by
  rcases runCommand_next ht with ⟨i, hw, ht⟩ | ⟨r, hw, rfl⟩
  · have hnever := fun hi => reply_ne_fault_of_completed (completed_of_never_faults hi ht) hreply
    cases i with
    | init v => exact (hnever (.inr (.inl ⟨v, rfl⟩))).elim
    | clear => exact (hnever (.inl rfl)).elim
    | setcur row col => exact faultCause_of_setcur hw ht hreply
    | wrchr ch => exact (hnever (.inr (.inr ⟨ch, rfl⟩))).elim
    | prchr ch => exact faultCause_of_prchr h hw ht hreply
    | flush => exact faultCause_of_flush hw ht hreply
  · cases hreply
    exact ⟨rfl, r, hw⟩

end

/-- Settles O39: a cause raises its fault, a fault has its cause, and three commands only complete. -/
theorem faultsHaveExactlyTheListedCauses : Obligations.FaultsHaveExactlyTheListedCauses := by
  refine ⟨fun s t w info h ht => ⟨faultCause_of_reply h ht, fun hcause => ?_⟩, fun s t i hi ht =>
    answeredFault_of_completed (completed_of_never_faults hi ht)⟩
  cases (runCommand_of_faultCause h hcause).symm.trans ht
  rfl

end Sys2Proof.Machine
end

section
/-! 70_reset_and_hazards.md R108: how many command bytes, data bytes and waits each command adds to the log. -/

namespace Sys2Proof.Machine

/-! ### What an emission adds to the log, by kind of event -/

/-- Emitting `as` logs `cmds` command bytes, `datas` data bytes and `waits` waits, from every state and whatever the
transport answers. -/
def WriteCounts (as : List Action) (cmds datas waits : Nat) : Prop :=
  ∀ (s : State) (n : Nat), (s.answered n as).countP Event.isCmd = cmds ∧
    (s.answered n as).countP Event.isData = datas ∧ (s.answered n as).countP Event.isWait = waits

theorem writeCounts_nil : WriteCounts [] 0 0 0 := fun _ _ => ⟨rfl, rfl, rfl⟩

theorem writeCounts_cmd (b : Byte) : WriteCounts [.cmd b] 1 0 0 := fun _ _ => ⟨rfl, rfl, rfl⟩

theorem writeCounts_data (b : Byte) : WriteCounts [.data b] 0 1 0 := fun _ _ => ⟨rfl, rfl, rfl⟩

theorem writeCounts_wait (t : Nat) : WriteCounts [.wait t] 0 0 1 := fun _ _ => ⟨rfl, rfl, rfl⟩

/-- The counts of two emissions in turn add up. -/
theorem writeCounts_append {as bs : List Action} {cmds datas waits cmds' datas' waits' : Nat}
    (ha : WriteCounts as cmds datas waits) (hb : WriteCounts bs cmds' datas' waits') :
    WriteCounts (as ++ bs) (cmds + cmds') (datas + datas') (waits + waits') := by
  intro s n
  obtain ⟨hcmds, hdatas, hwaits⟩ := ha s n
  obtain ⟨hcmds', hdatas', hwaits'⟩ := hb s (n + busWrites as)
  simp only [answered_append, List.countP_append, hcmds, hdatas, hwaits, hcmds', hdatas', hwaits', and_self]

/-- Emissions with the same counts, one for each element of a list, multiply them. -/
theorem writeCounts_flatMap {α : Type} {f : α → List Action} {cmds datas waits : Nat}
    (hf : ∀ x, WriteCounts (f x) cmds datas waits) (xs : List α) :
    WriteCounts (xs.flatMap f) (xs.length * cmds) (xs.length * datas) (xs.length * waits) := by
  induction xs with
  | nil => simpa using writeCounts_nil
  | cons x xs ih =>
    simpa only [List.flatMap_cons, List.length_cons, Nat.succ_mul, Nat.add_comm] using writeCounts_append (hf x) ih

theorem writeCounts_map_cmd (bs : List Byte) : WriteCounts (bs.map .cmd) bs.length 0 0 := by
  simpa [List.map_eq_flatMap] using writeCounts_flatMap writeCounts_cmd bs

theorem writeCounts_map_data (bs : List Byte) : WriteCounts (bs.map .data) 0 bs.length 0 := by
  simpa [List.map_eq_flatMap] using writeCounts_flatMap writeCounts_data bs

/-! ### The commands' emissions -/

theorem writeCounts_setcurActions (c : Config) (r col : Nat) : WriteCounts (setcurActions c r col) 3 0 0 :=
  fun _ _ => ⟨rfl, rfl, rfl⟩

theorem writeCounts_windowActions (c : Config) : WriteCounts (windowActions c) 6 0 0 :=
  fun _ _ => ⟨rfl, rfl, rfl⟩

/-- A cell of CLEAR is three addressing bytes and the space glyph. -/
theorem writeCounts_blankCell (c : Config) (space : List Byte) (r col : Nat) :
    WriteCounts (blankCell c space r col) 3 space.length 0 := by
  simpa [blankCell] using writeCounts_append (writeCounts_setcurActions c r col) (writeCounts_map_data space)

/-- CLEAR's cells, with `DISPLAY_OFF` before them and `DISPLAY_ON` and one `SETCUR_EMIT` after them (R64). -/
theorem writeCounts_clearActions (c : Config) (space : List Byte) :
    WriteCounts (clearActions c space) (5 + 3 * c.pages * c.charColumns) (space.length * c.pages * c.charColumns) 0 := by
  have hcells := writeCounts_flatMap (fun r =>
    writeCounts_flatMap (writeCounts_blankCell c space r) (List.range c.charColumns)) (List.range c.pages)
  have hbody := writeCounts_append (writeCounts_append (writeCounts_cmd c.displayOff) hcells)
    (writeCounts_append (writeCounts_cmd c.displayOn) (writeCounts_setcurActions c 0 0))
  simp only [List.length_range] at hbody
  convert hbody using 1
  · rfl
  · ring
  · ring
  · ring

/-- `INIT_SEQ(V)` is its command bytes between two waits (R58). -/
theorem writeCounts_initSeq (c : Config) (v : VSource) : WriteCounts (initSeq c v) (c.initSteps.bytes v).length 0 2 := by
  simpa [initSeq] using writeCounts_append (writeCounts_append (writeCounts_wait c.tPowerOn)
    (writeCounts_map_cmd (c.initSteps.bytes v))) (writeCounts_wait c.tDisplayOn)

/-- INIT emits its sequence and then CLEAR's writes (R54). -/
theorem writeCounts_initActions (c : Config) (v : VSource) (space : List Byte) :
    WriteCounts (initSeq c v ++ clearActions c space) ((c.initSteps.bytes v).length + 5 + 3 * c.pages * c.charColumns)
      (space.length * c.pages * c.charColumns) 2 := by
  simpa [Nat.add_assoc] using writeCounts_append (writeCounts_initSeq c v) (writeCounts_clearActions c space)

/-- FLUSH emits its two windows and then the framebuffer's bytes (R80). -/
theorem writeCounts_flushActions (c : Config) (bytes : List Byte) :
    WriteCounts (windowActions c ++ bytes.map .data) 6 bytes.length 0 := by
  simpa using writeCounts_append (writeCounts_windowActions c) (writeCounts_map_data bytes)

/-! ### What a command that may fault logs when it completes -/

section
variable {s t : State}

theorem setcur_log_of_completed {row col : Nat} (ht : exec (.setcur row col) s = .next t)
    (hcompletes : t.answeredFault = false) : t.log = s.log ++ s.answered 0 (setcurActions s.cfg row col) := by
  by_cases hrange : s.cfg.pages ≤ row ∨ s.cfg.charColumns ≤ col
  · cases (exec_setcur_out_of_range hrange).symm.trans ht
    simp at hcompletes
  · obtain ⟨hrow, hcol⟩ := not_or.mp hrange
    cases (exec_setcur_of_cell (Nat.lt_of_not_le hrow) (Nat.lt_of_not_le hcol)).symm.trans ht
    rfl

/-- The buffered print makes no bus write. -/
theorem prchr_log_of_completed {ch : Nat} (ht : exec (.prchr ch) s = .next t)
    (hcompletes : t.answeredFault = false) : t.log = s.log := by
  rcases execPrchr_next ht with ⟨-, rfl⟩ | ⟨-, p, rfl⟩ | ⟨-, m, n, rfl⟩
  · simp at hcompletes
  · simp at hcompletes
  · rfl

theorem flush_log_of_completed (h : s.Inv) (ht : exec .flush s = .next t) (hcompletes : t.answeredFault = false) :
    ∃ bytes : List Byte, bytes.length = s.cfg.len ∧
      t.log = s.log ++ s.answered 0 (windowActions s.cfg ++ bytes.map .data) := by
  cases hi : s.inited with
  | false =>
    cases (exec_flush_before_init hi).symm.trans ht
    simp at hcompletes
  | true =>
    cases (exec_flush_in_session h hi).symm.trans ht
    exact ⟨_, (fb_bytes_in_session h hi).1, rfl⟩

end

/-! ### The counts of each command -/

/-- The default `INIT_SEQ` has 22 command bytes for either voltage source (R59). -/
theorem defaultInitSteps_bytes_length (v : VSource) : (defaultInitSteps.bytes v).length = 22 := by
  cases v <;> rfl

/-- R108's row of WRCHR. -/
theorem wrchr_counts {s t : State} {ch : Nat} (h : s.configured = true) (ht : exec (.wrchr ch) s = .next t) :
    ∃ es, t.log = s.log ++ es ∧ es.countP Event.isCmd = 0 ∧
      (GlyphCode s.cfg ch → es.countP Event.isData = s.cfg.gw) ∧
      (¬ GlyphCode s.cfg ch → es.countP Event.isData = 0) ∧ es.countP Event.isWait = 0 := by
  by_cases hch : GlyphCode s.cfg ch
  · obtain ⟨g, hglyph, hlength, -⟩ := glyph_of_glyphCode h hch
    cases (exec_wrchr_of_glyph hch hglyph).symm.trans ht
    obtain ⟨hcmds, hdatas, hwaits⟩ := writeCounts_map_data g s 0
    exact ⟨_, rfl, hcmds, fun _ => hdatas.trans hlength, fun hno => absurd hch hno, hwaits⟩
  · cases (exec_wrchr_of_no_glyph hch).symm.trans ht
    exact ⟨[], (List.append_nil _).symm, rfl, fun hyes => absurd hyes hch, fun _ => rfl, rfl⟩

/-- Settles O46: each command that completes logs the events of one emission, whose counts are R108's. -/
theorem writeCountsPerCommand : Obligations.WriteCountsPerCommand := by
  refine ⟨fun s t i h ht hcompletes => ?_, fun c v hw hpages hgw hcols hsteps => ?_⟩
  · have hspace : (List.replicate s.cfg.gw 0#8).length = s.cfg.gw := List.length_replicate
    cases i with
    | init v =>
      cases (exec_init_of_configured h.configured v).symm.trans ht
      have hcounts := writeCounts_initActions s.cfg v (List.replicate s.cfg.gw 0#8)
      rw [hspace] at hcounts
      exact ⟨_, rfl, hcounts s 0⟩
    | clear =>
      cases (exec_clear_of_configured h.configured).symm.trans ht
      have hcounts := writeCounts_clearActions s.cfg (List.replicate s.cfg.gw 0#8)
      rw [hspace] at hcounts
      exact ⟨_, rfl, hcounts s 0⟩
    | setcur row col =>
      exact ⟨_, setcur_log_of_completed ht hcompletes, writeCounts_setcurActions s.cfg row col s 0⟩
    | wrchr ch => exact wrchr_counts h.configured ht
    | prchr ch =>
      exact ⟨[], (prchr_log_of_completed ht hcompletes).trans (List.append_nil _).symm, rfl⟩
    | flush =>
      obtain ⟨bytes, hlength, hlog⟩ := flush_log_of_completed h ht hcompletes
      exact ⟨_, hlog, hlength ▸ writeCounts_flushActions s.cfg bytes s 0⟩
  · rw [hsteps, defaultInitSteps_bytes_length, Config.len, hw, hpages, hgw, hcols]
    decide

end Sys2Proof.Machine
end

section
/-! 30_encoding.md R47, R48, R51 and 20_memory.md R33: encoding is the inverse of decoding, and a word as two bytes. -/

namespace Sys2Proof
open Machine

/-! ### Decoding what was encoded -/

theorem decode_prchr_word {ch : Nat} (hch : ch ≤ 255) :
    decode (BitVec.ofNat 16 (0x5000 + ch)) = .ok (.prchr ch) := by
  refine (decode_ok_iff _ _).mpr ⟨?_, ?_, ?_⟩ <;> rw [bits_ofNat] <;> omega

/-- Settles O1: the word of each command has that command's fields. -/
theorem decodeOfEncodeIsTheCommand : Obligations.DecodeOfEncodeIsTheCommand := by
  intro i hwf
  cases i with
  | init v => cases v <;> decide
  | clear => decide
  | setcur row col =>
    obtain ⟨hrow, hcol⟩ : row ≤ 15 ∧ col ≤ 255 := by simpa [Instr.wellFormed] using hwf
    exact decode_setcur_word hrow hcol
  | wrchr ch => exact decode_wrchr_word (of_decide_eq_true hwf)
  | prchr ch => exact decode_prchr_word (of_decide_eq_true hwf)
  | flush => decide

/-! ### Encoding what was decoded -/

/-- A word is its opcode, bits 11:8 and bits 7:0. -/
theorem toNat_eq_fields (w : Word) : w.toNat = bits w 15 12 * 4096 + bits w 11 8 * 256 + bits w 7 0 := by
  have := w.isLt
  simp only [bits]
  omega

/-- Bits 11:0 are bits 11:8 and bits 7:0. -/
theorem bits_operand (w : Word) : bits w 11 0 = bits w 11 8 * 256 + bits w 7 0 := by
  simp only [bits]
  omega

/-- Bits 11:0 are INIT's must-be-zero field and its operand bit. -/
theorem bits_operand_low (w : Word) : bits w 11 0 = bits w 11 1 * 2 + bits w 0 0 := by
  simp only [bits]
  omega

theorem bits_lt (w : Word) (hi lo : Nat) : bits w hi lo < 2 ^ (hi + 1 - lo) := Nat.mod_lt _ (Nat.two_pow_pos _)

theorem toBit_ofBit {b : Nat} (h : b < 2) : (VSource.ofBit b).toBit = b := by
  match b with
  | 0 | 1 => rfl

/-- A word with the value of a command's word is that word. -/
theorem ofNat_eq_of_toNat {w : Word} {n : Nat} (h : w.toNat = n) : BitVec.ofNat 16 n = w := by
  rw [← h, BitVec.ofNat_toNat, BitVec.setWidth_eq]

/-- Settles O2: a decoded word's fields are the command's, and the fields make up the whole word. -/
theorem encodeOfDecodeIsTheWord : Obligations.EncodeOfDecodeIsTheWord := by
  intro w i hw
  have hfields := (decode_ok_iff w i).mp hw
  have hword := toNat_eq_fields w
  have hoperand := bits_operand w
  have hrow := bits_lt w 11 8
  have hlow := bits_lt w 7 0
  cases i with
  | init v =>
    obtain ⟨hop, hzero, rfl⟩ := hfields
    have hbit := bits_operand_low w
    refine ⟨rfl, ofNat_eq_of_toNat ?_⟩
    rw [toBit_ofBit (bits_lt w 0 0)]
    omega
  | clear =>
    obtain ⟨hop, hzero⟩ := hfields
    exact ⟨rfl, ofNat_eq_of_toNat (by omega)⟩
  | setcur row col =>
    obtain ⟨hop, rfl, rfl⟩ := hfields
    refine ⟨?_, ofNat_eq_of_toNat (by omega)⟩
    simp only [Instr.wellFormed, Bool.and_eq_true, decide_eq_true_eq]
    omega
  | wrchr ch =>
    obtain ⟨hop, hzero, rfl⟩ := hfields
    exact ⟨decide_eq_true (by omega), ofNat_eq_of_toNat (by omega)⟩
  | prchr ch =>
    obtain ⟨hop, hzero, rfl⟩ := hfields
    exact ⟨decide_eq_true (by omega), ofNat_eq_of_toNat (by omega)⟩
  | flush =>
    obtain ⟨hop, hzero⟩ := hfields
    exact ⟨rfl, ofNat_eq_of_toNat (by omega)⟩

/-! ### The operands of a word (R48) -/

/-- INIT's operand is external exactly when bit 0 is set. -/
theorem ofBit_eq_external_iff (w : Word) : VSource.ofBit (bits w 0 0) = .external ↔ w.getLsbD 0 = true := by
  rw [ofBit_bits_zero]
  cases w.getLsbD 0 <;> simp

/-- Settles O4: a decoded operand is the field that `decode` reads, and the encoder's words carry every field value. -/
theorem operandsAreTheFields : Obligations.OperandsAreTheFields := by
  refine ⟨fun w v hw => ?_, fun w row col hw => ?_, fun w ch hw => ?_, fun ch hch => ?_, fun row col hrow hcol => ?_⟩
  · obtain ⟨-, -, rfl⟩ := (decode_ok_iff w _).mp hw
    exact ofBit_eq_external_iff w
  · obtain ⟨-, hrow, hcol⟩ := (decode_ok_iff w _).mp hw
    exact ⟨hrow.trans (bits_eq_extract w 11 8), hcol.trans (bits_eq_extract w 7 0)⟩
  · have hch : ch = bits w 7 0 := by
      rcases hw with hw | hw <;> exact ((decode_ok_iff w _).mp hw).2.2
    exact hch.trans (bits_eq_extract w 7 0)
  · exact ⟨⟨_, decode_wrchr_word hch⟩, _, decode_prchr_word hch⟩
  · exact ⟨_, decode_setcur_word hrow hcol⟩

/-- Settles O6: the decoder on words written out bit by bit. -/
theorem writtenOutWordsDecode : Obligations.WrittenOutWordsDecode := by
  unfold Obligations.WrittenOutWordsDecode
  decide

/-! ### A word as two bytes (R33) and the assembler's refusals (R51) -/

/-- A word is its high byte and its low byte. -/
theorem high_append_low (w : Word) : w.extractLsb' 8 8 ++ w.extractLsb' 0 8 = w :=
  (BitVec.extractLsb'_append_extractLsb'_eq_extractLsb' (start₁ := 0) (len₁ := 8) rfl).trans BitVec.extractLsb'_eq_self

/-- Settles O7: in either order the two bytes are put together as the high and the low one. -/
theorem hostBytesCarryTheWord : Obligations.HostBytesCarryTheWord := by
  intro o w rest
  cases o <;> exact congrArg (fun w => some (w, rest)) (high_append_low w)

/-- Exactly the commands with an encoding are assembled. -/
theorem encodeChecked_eq_none_iff (i : Instr) : encodeChecked i = none ↔ i.wellFormed = false := by
  rw [encodeChecked, ite_eq_right_iff]
  simp

/-- Settles O8: a command is without an encoding when an operand is wider than its field. -/
theorem assemblerRefusesWideOperands : Obligations.AssemblerRefusesWideOperands := by
  refine ⟨fun row col => ?_, fun ch => ?_, fun ch => ?_⟩
  · rw [encodeChecked_eq_none_iff]
    simp only [Instr.wellFormed, Bool.and_eq_false_iff, decide_eq_false_iff_not, Nat.not_le]
  · rw [encodeChecked_eq_none_iff]
    simp only [Instr.wellFormed, decide_eq_false_iff_not, Nat.not_le]
  · rw [encodeChecked_eq_none_iff]
    simp only [Instr.wellFormed, decide_eq_false_iff_not, Nat.not_le]

end Sys2Proof
end

section
/-! 30_encoding.md R52: what a line of WRSTR or PRSTR assembles to. -/

namespace Sys2Proof.Machine

/-! ### The tokens of a line -/

/-- A string without a double quote (`'\x22'`) is read up to the closing one. -/
theorem takeString_quoted {cs : List Char} (h : ∀ c ∈ cs, c ≠ '\x22') :
    takeString (cs ++ ['\x22']) = some (cs.map Char.toNat, []) := by
  induction cs with
  | nil => rfl
  | cons c cs ih =>
    obtain ⟨hc, hcs⟩ := List.forall_mem_cons.mp h
    rw [List.cons_append, takeString, ih hcs]
    · rfl
    · exact hc

/-- A quoted string at the end of a line is one token, its characters' codes. -/
theorem tokens_quoted {fuel : Nat} {cs : List Char} (h : ∀ c ∈ cs, c ≠ '\x22') :
    tokens (fuel + 1) ('\x22' :: (cs ++ ['\x22'])) = some [.string (cs.map Char.toNat)] := by
  rw [tokens, takeString_quoted h]
  cases fuel <;> rfl

/-- No digit and no character with a reading of its own is a letter of a name. -/
theorem not_isNameChar {d : Char} (hd : isNameChar d = false) {c : Char} (hc : isNameChar c = true) : c ≠ d := by
  rintro rfl
  simp [hd] at hc

theorem decimalDigit_of_isNameChar {c : Char} (hc : isNameChar c = true) : decimalDigit c = none := by
  have hA : 'A' ≤ c := (of_decide_eq_true hc).1
  exact if_neg fun hdigit => absurd (hA.trans hdigit.2) (by decide)

/-- A mnemonic before a space is one token (R51). -/
theorem tokens_name {fuel : Nat} {c : Char} {name rest : List Char} (hc : isNameChar c = true)
    (hname : ∀ d ∈ name, isNameChar d = true) :
    tokens (fuel + 1) (c :: (name ++ ' ' :: rest)) = (tokens fuel (' ' :: rest)).map (Token.name (c :: name) :: ·) := by
  have hne := fun {d : Char} (hd : isNameChar d = false) => not_isNameChar hd hc
  rw [tokens.eq_10 _ _ _ (hne rfl) (hne rfl) (hne rfl) (fun _ h _ => hne rfl h) (fun _ _ h _ => hne rfl h) (hne rfl)
    (fun _ h _ => hne rfl h), decimalDigit_of_isNameChar hc, if_neg (by simp), if_pos hc,
    List.takeWhile_append_of_pos hname, List.dropWhile_append_of_pos hname]
  simp [isNameChar]

/-- The line of a string command is its mnemonic and its string. -/
theorem tokens_string_line {c : Char} {name cs : List Char} (hc : isNameChar c = true)
    (hname : ∀ d ∈ name, isNameChar d = true) (h : ∀ c ∈ cs, c ≠ '\x22') :
    tokens (c :: name ++ [' ', '\x22'] ++ cs ++ ['\x22']).length (c :: name ++ [' ', '\x22'] ++ cs ++ ['\x22']) =
      some [.name (c :: name), .string (cs.map Char.toNat)] := by
  have hline : c :: name ++ [' ', '\x22'] ++ cs ++ ['\x22'] =
      c :: (name ++ ' ' :: '\x22' :: (cs ++ ['\x22'])) := by simp
  have hlength : (c :: (name ++ ' ' :: '\x22' :: (cs ++ ['\x22']))).length =
      name.length + cs.length + 1 + 1 + 1 + 1 := by
    simp; omega
  rw [hline, hlength, tokens_name hc hname, tokens, tokens_quoted h]
  rfl

/-! ### The words of a line -/

/-- Commands with encodings are assembled to their words, in order. -/
theorem mapM_encodeChecked {is : List Instr} (h : ∀ i ∈ is, i.wellFormed = true) :
    is.mapM encodeChecked = some (is.map encode) := by
  induction is with
  | nil => rfl
  | cons i is ih =>
    obtain ⟨hi, his⟩ := List.forall_mem_cons.mp h
    simp [encodeChecked, hi, ih his]

/-- A line of a string command assembles to the words of the commands its codes stand for. -/
theorem assembleLine_string {c : Char} {name cs : List Char} {f : Nat → Instr} (hc : isNameChar c = true)
    (hname : ∀ d ∈ name, isNameChar d = true) (hcs : ∀ c ∈ cs, c ≠ '\x22' ∧ c.toNat ≤ 255)
    (hparse : ∀ codes, parse [.name (c :: name), .string codes] = some (codes.map f))
    (hwf : ∀ code, code ≤ 255 → (f code).wellFormed = true) :
    assembleLine (c :: name ++ [' ', '\x22'] ++ cs ++ ['\x22']) = some (cs.map fun c => encode (f c.toNat)) := by
  have hinstrs : ∀ i ∈ (cs.map Char.toNat).map f, i.wellFormed = true := by
    simp only [List.forall_mem_map]
    exact fun c hmem => hwf _ (hcs c hmem).2
  rw [assembleLine, tokens_string_line hc hname fun c hmem => (hcs c hmem).1, Option.bind_some, hparse]
  exact (mapM_encodeChecked hinstrs).trans (by simp)

/-- Settles O9: the tokens of the line are the mnemonic and the string's codes, each the operand of one command. -/
theorem stringCommandsExpandPerByte : Obligations.StringCommandsExpandPerByte := by
  intro cs hcs
  exact ⟨assembleLine_string (c := 'W') (name := ['R', 'S', 'T', 'R']) (f := .wrchr) (by decide) (by simp [isNameChar])
      hcs (fun _ => rfl) (fun _ => decide_eq_true),
    assembleLine_string (c := 'P') (name := ['R', 'S', 'T', 'R']) (f := .prchr) (by decide) (by simp [isNameChar])
      hcs (fun _ => rfl) (fun _ => decide_eq_true)⟩

end Sys2Proof.Machine
end

section
/-! 30_encoding.md R45, 60_exceptions.md R95, 70_reset_and_hazards.md R101: what a step does with the host's event. -/

namespace Sys2Proof.Machine

/-- A configured TFC serves the host's next event. -/
theorem step_of_configured {s : State} (hc : s.configured = true) : step s = serve s := if_pos hc

/-- Settles O10: the presented word is taken off the host's list and decoded, and its command runs. -/
theorem stepRunsThePresentedCommand : Obligations.StepRunsThePresentedCommand := by
  intro s w i rest hc hhost hw
  rw [step_of_command hc hhost, runCommand_of_decode hw]
  rfl

/-- Settles O11: with an empty list of events `serve` answers the state it was given. -/
theorem idleStepHoldsTheState : Obligations.IdleStepHoldsTheState := by
  intro s hc hhost
  rw [step_of_configured hc, serve, hhost]

/-- Settles O12: `serve` refuses an overlapping word without decoding it. -/
theorem overlappingCommandIsRefused : Obligations.OverlappingCommandIsRefused := by
  intro s w rest hc hhost
  rw [step_of_configured hc, serve, hhost]

/-- Settles O45: a command byte and a data byte name their register, and a wait makes no transaction. -/
theorem busWritesUseTheTwoRegisters : Obligations.BusWritesUseTheTwoRegisters :=
  fun _ _ _ _ => ⟨rfl, rfl, rfl⟩

end Sys2Proof.Machine
end

section
/-! 41_init.md R58: the steps of `INIT_SEQ`, where its two modes differ, and the sequences the model refuses. -/

namespace Sys2Proof.Machine

/-- Settles O17: both sides list R58's steps in its order. -/
theorem initSequenceHasTheNamedSteps : Obligations.InitSequenceHasTheNamedSteps := by
  intro c
  constructor <;> simp [initSeq, InitSteps.bytes, ModeStep.bytes, ModeStep.value]

/-- What `InitSteps.valid` says, in the words of R58 and 30_encoding.md R53. -/
theorem initSteps_valid_iff (t : InitSteps) (selectHorizontal : List Byte) (displayOn : Byte) :
    t.valid selectHorizontal displayOn = true ↔
      [] ∉ [t.clockDivider, t.multiplexRatio, t.displayOffset, t.startLine, t.memoryMode, t.segmentRemap,
        t.scanDirection, t.comPins, t.vcomDetect, t.displayOn] ∧
      (t.chargePump.internal ≠ t.chargePump.external ∧ t.contrast.internal ≠ t.contrast.external ∧
        t.preCharge.internal ≠ t.preCharge.external) ∧
      t.memoryMode = selectHorizontal ∧ displayOn ∈ t.displayOn := by
  simp [InitSteps.valid, and_assoc, @eq_comm _ ([] : List Byte)]

/-- Settles O55: each of the cases breaks a condition that a configured state's sequence meets. -/
theorem initSequenceOutsideTheRuleIsRefused : Obligations.InitSequenceOutsideTheRuleIsRefused := by
  intro s t hbroken
  refine step_of_not_configured fun hconfigured => ?_
  obtain ⟨⟨-, -, hvalid⟩, -⟩ := (configured_iff s).mp hconfigured
  obtain ⟨hsteps, ⟨hpump, hcontrast, hcharge⟩, hmode, hon⟩ := (initSteps_valid_iff _ _ _).mp hvalid
  rcases hbroken with hempty | hsame | hsame | hsame | hother | hoff
  · exact hsteps hempty
  · exact hpump hsame
  · exact hcontrast hsame
  · exact hcharge hsame
  · exact hother hmode
  · exact hoff hon

/-- `INIT_SEQ(V)` with its three mode-dependent bytes set apart from what both modes send. -/
theorem initSeq_eq_around_values {c : Config} {t : InitSteps} (ht : c.initSteps = t) :
    ∃ before afterPump afterContrast afterCharge : List Action, ∀ v,
    initSeq c v = before ++ .cmd (t.chargePump.value v) ::
      (afterPump ++ .cmd (t.contrast.value v) :: (afterContrast ++ .cmd (t.preCharge.value v) :: afterCharge)) := by
  refine ⟨.wait c.tPowerOn :: (t.clockDivider ++ t.multiplexRatio ++ t.displayOffset ++ t.startLine ++
      t.chargePump.before).map .cmd,
    (t.chargePump.after ++ t.memoryMode ++ t.segmentRemap ++ t.scanDirection ++ t.comPins ++
      t.contrast.before).map .cmd,
    (t.contrast.after ++ t.preCharge.before).map .cmd,
    (t.preCharge.after ++ t.vcomDetect ++ t.displayOn).map .cmd ++ [.wait c.tDisplayOn], fun v => ?_⟩
  simp [initSeq, InitSteps.bytes, ModeStep.bytes, ht]

/-- The two values of a mode-dependent step make two command bytes. -/
theorem cmd_value_ne {m : ModeStep} (h : m.internal ≠ m.external) :
    Action.cmd (m.value .internal) ≠ .cmd (m.value .external) := mt Action.cmd.inj h

/-- Two lists that begin alike and then hold different elements differ there and where what follows differs. -/
theorem getElem?_append_cons_ne_iff {α : Type} {x y : α} (hxy : x ≠ y) (p xs ys : List α) (n : Nat) :
    (p ++ x :: xs)[n]? ≠ (p ++ y :: ys)[n]? ↔
      n = p.length ∨ ∃ m, n = p.length + 1 + m ∧ xs[m]? ≠ ys[m]? := by
  rcases Nat.lt_trichotomy n p.length with hlt | rfl | hgt
  · rw [List.getElem?_append_left hlt, List.getElem?_append_left hlt]
    simp only [ne_eq, not_true_eq_false, false_iff, not_or, not_exists]
    exact ⟨hlt.ne, fun m hm => by omega⟩
  · simpa using hxy
  · obtain ⟨m, rfl⟩ := Nat.exists_eq_add_of_le (Nat.succ_le_of_lt hgt)
    have hskip : ∀ z (zs : List α), (p ++ z :: zs)[p.length.succ + m]? = zs[m]? := fun z zs => by
      rw [List.getElem?_append_right (by omega), show p.length.succ + m - p.length = m + 1 by omega,
        List.getElem?_cons_succ]
    rw [hskip, hskip]
    constructor
    · exact fun hne => .inr ⟨m, rfl, hne⟩
    · rintro (heq | ⟨m', heq, hne⟩)
      · omega
      · rwa [show m = m' by omega]

/-- Settles O54: in a valid configuration the three mode-dependent values differ, and what stands around them is shared. -/
theorem initSequencesDifferInThreeItems : Obligations.InitSequencesDifferInThreeItems := by
  intro c hc
  have hvalid : c.initSteps.valid c.selectHorizontal c.displayOn = true := (Bool.and_eq_true _ _ ▸ hc).2
  obtain ⟨-, ⟨hpump, hcontrast, hcharge⟩, -⟩ := (initSteps_valid_iff _ _ _).mp hvalid
  obtain ⟨before, afterPump, afterContrast, afterCharge, hseq⟩ := initSeq_eq_around_values (c := c) rfl
  refine ⟨before.length, before.length + 1 + afterPump.length,
    before.length + 1 + (afterPump.length + 1 + afterContrast.length), by omega, by omega, fun n => ?_⟩
  rw [hseq, hseq, getElem?_append_cons_ne_iff (cmd_value_ne hpump)]
  simp only [getElem?_append_cons_ne_iff (cmd_value_ne hcontrast), getElem?_append_cons_ne_iff (cmd_value_ne hcharge)]
  simp only [ne_eq, not_true_eq_false, and_false, exists_false, or_false]
  constructor
  · rintro (h | ⟨m, h, h' | ⟨m', h', h''⟩⟩) <;> omega
  · rintro (h | h | h)
    · exact .inl h
    · exact .inr ⟨_, h, .inl rfl⟩
    · exact .inr ⟨_, h, .inr ⟨_, rfl, rfl⟩⟩

end Sys2Proof.Machine
end

section
/-! 10_state.md R23, 20_memory.md R36: the invariant holds at reset, every step keeps it, and every command is
answered. -/

namespace Sys2Proof.Machine

/-! ### The reset states -/

/-- The reset values of a configuration and a ROM inside the spec. -/
theorem resetWith_inv {c : Config} {rom : List Byte} (hc : c.valid = true) (hrom : c.romOk rom = true) :
    (State.resetWith c rom).Inv where
  configured := Bool.and_eq_true_iff.mpr ⟨hc, hrom⟩
  canonical := rfl
  inRange := by simp [State.resetWith]
  full := by simp [State.resetWith]
  cursor := Nat.zero_le _
  beforeSession := fun _ => ⟨rfl, rfl, rfl⟩

theorem atReset_valid : Config.atReset.valid = true := by decide

/-- The ROM at reset is a zero space glyph and the bytes of 94 more glyphs. -/
theorem atReset_romOk : Config.atReset.romOk romAtReset = true := by
  simp [Config.romOk, Config.atReset, romAtReset]

/-- Settles O15: the reset values are the invariant's values before a session. -/
theorem resetStateMeetsTheInvariant : Obligations.ResetStateMeetsTheInvariant :=
  ⟨resetWith_inv atReset_valid atReset_romOk, fun _ _ => resetWith_inv⟩

/-! ### What keeps the invariant -/

section
variable {s : State} (h : s.Inv)
include h

theorem inv_setHost (rest : List HostEvent) : (s.setHost rest).Inv := inv_of_same h rfl rfl rfl rfl rfl rfl

theorem inv_withFault (info : FaultInfo) : (s.withFault info).Inv := inv_of_same h rfl rfl rfl rfl rfl rfl

theorem inv_afterWrites (es : List Event) : (s.afterWrites es).Inv := inv_of_same h rfl rfl rfl rfl rfl rfl

theorem inv_emitAll_finish (as : List Action) (fail : Bool) : ((s.emitAll as).finish fail).Inv :=
  inv_of_same h rfl rfl rfl rfl rfl rfl

theorem inv_hardReset : s.hardReset.Inv :=
  inv_of_same (resetWith_inv (Bool.and_eq_true_iff.mp h.configured).1 (Bool.and_eq_true_iff.mp h.configured).2)
    rfl rfl rfl rfl rfl rfl

/-- INIT fills the whole buffer and puts `CUR` at 0. -/
theorem execInit_inv {v : VSource} {t : State} (ht : execInit v s = .next t) : t.Inv := by
  obtain ⟨as, bs, rfl⟩ := execInit_next ht
  exact inv_of_session h rfl rfl (openSession_keys h.inRange) (Nat.zero_le _) rfl

/-- PRCHR faults, or leaves a full buffer and a cursor up to `LEN`. -/
theorem execPrchr_inv {ch : Nat} {t : State} (ht : execPrchr ch s = .next t) : t.Inv := by
  rcases execPrchr_of_inv h ch with ⟨-, hfault⟩ | ⟨-, -, -, -, hfault⟩ | ⟨hi, -, m, n, hprint, hn, hfull⟩
  · cases hfault.symm.trans ht
    exact inv_withFault h _
  · cases hfault.symm.trans ht
    exact inv_withFault h _
  · cases hprint.symm.trans ht
    exact inv_of_session h rfl rfl hfull ((cur_toNat h hn).trans_le hn) hi

theorem exec_inv {i : Instr} {t : State} (ht : exec i s = .next t) : t.Inv := by
  cases i with
  | init v => exact execInit_inv h ht
  | clear =>
    obtain ⟨as, rfl⟩ := execClear_next ht
    exact inv_emitAll_finish h _ _
  | setcur row col =>
    rcases execSetcur_next ht with rfl | ⟨as, rfl⟩
    · exact inv_withFault h _
    · exact inv_emitAll_finish h _ _
  | wrchr ch =>
    obtain ⟨as, rfl⟩ := execWrchr_next ht
    exact inv_emitAll_finish h _ _
  | prchr ch => exact execPrchr_inv h ht
  | flush =>
    rcases execFlush_next ht with ⟨-, rfl⟩ | ⟨-, as, rfl⟩
    · exact inv_withFault h _
    · exact inv_emitAll_finish h _ _

theorem runCommand_inv {w : Word} {t : State} (ht : runCommand w s = .next t) : t.Inv := by
  rcases runCommand_next ht with ⟨i, -, ht⟩ | ⟨r, -, rfl⟩
  · exact exec_inv h ht
  · exact inv_withFault h _

end

/-- Settles O47: the step idles, runs a presented word, or is a reset, and each keeps the invariant. -/
theorem stepKeepsTheInvariant : Obligations.StepKeepsTheInvariant := by
  intro s t h ht
  obtain ⟨-, ⟨-, rfl⟩ | ⟨w, rest, -, hrun⟩ | ⟨rest, -, rfl⟩⟩ := step_next ht
  · exact h
  · exact runCommand_inv (inv_setHost h rest) hrun
  · exact inv_hardReset (inv_setHost h rest)

/-! ### Every command is answered (R36) -/

/-- No command stops in a state that meets the invariant, and each leaves a result. -/
theorem exec_answers {s : State} (h : s.Inv) (i : Instr) : ∃ t, exec i s = .next t ∧ t.reply ≠ none := by
  cases i with
  | init v => exact ⟨_, exec_init_of_configured h.configured v, nofun⟩
  | clear => exact ⟨_, exec_clear_of_configured h.configured, nofun⟩
  | setcur row col =>
    by_cases hrange : s.cfg.pages ≤ row ∨ s.cfg.charColumns ≤ col
    · exact ⟨_, exec_setcur_out_of_range hrange, nofun⟩
    · obtain ⟨hrow, hcol⟩ := not_or.mp hrange
      exact ⟨_, exec_setcur_of_cell (Nat.lt_of_not_le hrow) (Nat.lt_of_not_le hcol), nofun⟩
  | wrchr ch =>
    by_cases hch : GlyphCode s.cfg ch
    · obtain ⟨g, hglyph, -⟩ := glyph_of_glyphCode h.configured hch
      exact ⟨_, exec_wrchr_of_glyph hch hglyph, nofun⟩
    · exact ⟨_, exec_wrchr_of_no_glyph hch, nofun⟩
  | prchr ch =>
    rcases execPrchr_of_inv h ch with ⟨-, hfault⟩ | ⟨-, -, -, -, hfault⟩ | ⟨-, -, m, n, hprint, -⟩
    · exact ⟨_, hfault, nofun⟩
    · exact ⟨_, hfault, nofun⟩
    · exact ⟨_, hprint, nofun⟩
  | flush =>
    cases hi : s.inited with
    | false => exact ⟨_, exec_flush_before_init hi, nofun⟩
    | true => exact ⟨_, exec_flush_in_session h hi, nofun⟩

/-- A presented word goes on, as a command or as an illegal word. -/
theorem runCommand_answers {s : State} (h : s.Inv) (w : Word) : ∃ t, runCommand w s = .next t := by
  cases hw : decode w with
  | ok i =>
    obtain ⟨t, ht, -⟩ := exec_answers h i
    exact ⟨t, (runCommand_of_decode hw s).trans ht⟩
  | illegal r => exact ⟨_, runCommand_of_illegal hw s⟩

/-- Settles O48: each command has its answer, and of the host's events only an overlapping word has none. -/
theorem everyCommandIsAnswered : Obligations.EveryCommandIsAnswered := by
  refine ⟨fun s i h => exec_answers h i, fun s h hno => ?_⟩
  rcases hhost : s.host with _ | ⟨w | w | _, rest⟩
  · exact ⟨s, idleStepHoldsTheState s h.configured hhost⟩
  · obtain ⟨t, ht⟩ := runCommand_answers (inv_setHost h rest) w
    exact ⟨t, (step_of_command h.configured hhost).trans ht⟩
  · exact absurd hhost (hno w rest)
  · exact ⟨_, step_of_reset h.configured hhost⟩

end Sys2Proof.Machine
end

section
/-! 10_state.md R14 to R19, 30_encoding.md R46, 70_reset_and_hazards.md R102: what a command leaves as it was, what it
answers, and what it takes from the transport. -/

namespace Sys2Proof.Machine

/-! ### Frames of the direct path and of PRCHR -/

/-- The direct path faults, SETCUR alone, or makes its writes and completes. -/
theorem direct_path_next {i : Instr} {s t : State}
    (hi : i = .clear ∨ (∃ row col, i = .setcur row col) ∨ ∃ ch, i = .wrchr ch) (ht : exec i s = .next t) :
    (∃ row col, i = .setcur row col ∧ t = s.withFault (.cursorRange row col)) ∨
      ∃ as, t = (s.emitAll as).finish (s.anyNack as) := by
  rcases hi with rfl | ⟨row, col, rfl⟩ | ⟨ch, rfl⟩
  · exact .inr (execClear_next ht)
  · exact (execSetcur_next ht).imp_left fun hfault => ⟨row, col, rfl, hfault⟩
  · exact .inr (execWrchr_next ht)

/-- Settles O23: SETCUR's fault and an emission both leave the session, and only the fault touches `FAULT`. -/
theorem directPathLeavesTheSession : Obligations.DirectPathLeavesTheSession := by
  intro s t i hi ht
  rcases direct_path_next hi ht with ⟨row, col, rfl, rfl⟩ | ⟨as, rfl⟩
  · exact ⟨fun _ => rfl, rfl, rfl, rfl, rfl, rfl, rfl, rfl, ⟨[], (List.append_nil _).symm⟩,
      fun hno => absurd rfl (hno row col)⟩
  · exact ⟨fun _ => rfl, rfl, rfl, rfl, rfl, rfl, rfl, rfl, ⟨_, rfl⟩, fun _ => rfl⟩

/-- Settles O31: PRCHR raises a fault, or replaces `FB` and `CUR` and completes without a bus write. -/
theorem prchrIsInvisibleUntilFlush : Obligations.PrchrIsInvisibleUntilFlush := by
  intro s t ch ht
  rcases execPrchr_next ht with ⟨-, rfl⟩ | ⟨-, p, rfl⟩ | ⟨-, m, n, rfl⟩
  · exact ⟨rfl, rfl, rfl, rfl, rfl, rfl, rfl, rfl, fun _ => ⟨rfl, rfl, rfl⟩, nofun⟩
  · exact ⟨rfl, rfl, rfl, rfl, rfl, rfl, rfl, rfl, fun _ => ⟨rfl, rfl, rfl⟩, nofun⟩
  · exact ⟨rfl, rfl, rfl, rfl, rfl, rfl, rfl, rfl, nofun, fun _ => ⟨rfl, rfl⟩⟩

/-! ### VSRC and the result -/

/-- INIT sets the mode of its operand (R54). -/
theorem execInit_vsrc {v : VSource} {s t : State} (ht : execInit v s = .next t) : t.vsrc = v := by
  obtain ⟨as, bs, rfl⟩ := execInit_next ht
  rfl

/-- Settles O50: INIT is the one of a presented word's outcomes that writes `VSRC`. -/
theorem onlyInitWritesTheVoltageSource : Obligations.OnlyInitWritesTheVoltageSource := by
  intro s t w h
  refine ⟨fun v hw => ?_, fun hno => ?_⟩
  · rw [runCommand_of_decode hw] at h
    exact execInit_vsrc h
  · rcases runCommand_cases h with ⟨_, rfl⟩ | ⟨_, rfl⟩ | ⟨_, _, rfl⟩ | ⟨v, _, _, hw, -⟩
    · rfl
    · rfl
    · rfl
    · exact absurd hw (hno v)

/-- Bits that were just set are set. -/
theorem or_and_self_right {n : Nat} (a b : BitVec n) : (a ||| b) &&& b = b := by
  ext k hk
  simp only [BitVec.getElem_and, BitVec.getElem_or]
  cases a[k] <;> cases b[k] <;> rfl

/-- No result has the fourth code (R46). -/
theorem code_ne_three : ∀ r : Reply, r.code ≠ 0b11#2
  | .ok => by decide
  | .fail => by decide
  | .fault _ => (by decide : 0b10#2 ≠ 0b11#2)

/-- Settles O43: a presented word is answered with a fault, whose bit is then set, or with the aggregate in `FAIL`. -/
theorem resultsAndTheirCodes : Obligations.ResultsAndTheirCodes := by
  refine ⟨rfl, rfl, fun _ => rfl, code_ne_three, fun s t w h => ?_⟩
  rcases runCommand_answer h with ⟨info, rfl⟩ | ⟨as, -, -, hreply, -⟩
  · refine ⟨_, rfl, nofun, nofun, fun info' hinfo => ?_⟩
    cases hinfo
    exact or_and_self_right _ _
  · refine ⟨_, hreply, ?_⟩
    cases t.fail <;> simp

/-! ### The log and the answers -/

/-- A presented word takes the next answers for the writes it logs, and the later ones stay. -/
theorem runCommand_writes {w : Word} {s t : State} (h : runCommand w s = .next t) :
    ∃ as, t.log = s.log ++ s.answered 0 as ∧ t.draws = s.draws + busWrites as ∧
      ∀ n, t.ackAt n = s.ackAt (busWrites as + n) := by
  rcases runCommand_cases h with ⟨_, rfl⟩ | ⟨as, rfl⟩ | ⟨_, _, rfl⟩ | ⟨v, as, bs, -, rfl⟩
  · exact ⟨[], (List.append_nil _).symm, rfl, fun n => congrArg s.ackAt (Nat.zero_add n).symm⟩
  · exact ⟨as, rfl, rfl, ackAt_emitAll s as⟩
  · exact ⟨[], (List.append_nil _).symm, rfl, fun n => congrArg s.ackAt (Nat.zero_add n).symm⟩
  · refine ⟨as ++ bs, init_log s v as bs _, ?_, fun n => ?_⟩
    · simp [Nat.add_assoc]
    · simp [State.ackAt, Nat.add_assoc]

/-- Settles O37: the log grows by one emission with its answers, which are as many as its bus writes. -/
theorem logRecordsTheAnswersInOrder : Obligations.LogRecordsTheAnswersInOrder := by
  intro s t w h
  obtain ⟨as, hlog, hdraws, hlater⟩ := runCommand_writes h
  have hanswers := (answers_answered s as).2
  have hcount : ((s.answered 0 as).filterMap Event.ack).length = busWrites as := by simp [hanswers]
  rw [← hcount] at hanswers hdraws hlater
  exact ⟨_, hlog, hanswers, hdraws, hlater⟩

end Sys2Proof.Machine
end

section
/-! 41_init.md R55, 60_exceptions.md R87: what a command does depends on the parameters, the ROM, `FB`, `CUR` and
`INITED` alone, and neither on the transport's answers nor on `FAULT`. -/

namespace Sys2Proof.Machine

/-! ### What a command reads, and what it does with it -/

/-- `t` holds what a command of `s` reads to choose what to do. -/
structure SameInputs (s t : State) : Prop where
  cfg : t.cfg = s.cfg
  rom : t.rom = s.rom
  fb : t.fb = s.fb
  cur : t.cur = s.cur
  inited : t.inited = s.inited

theorem sameInputs_refl (s : State) : SameInputs s s := ⟨rfl, rfl, rfl, rfl, rfl⟩

/-- What a command chose to do. -/
inductive Effect where
  /-- raise a fault -/
  | fault (info : FaultInfo)
  /-- emit and complete -/
  | writes (as : List Action)
  /-- replace `FB` and `CUR` and complete -/
  | print (m : Memory) (n : Nat)
  /-- set the mode, emit, begin a session, emit and complete -/
  | init (v : VSource) (as bs : List Action)

/-- An effect on a state. -/
def Effect.apply : Effect → State → State
  | .fault info, s => s.withFault info
  | .writes as, s => (s.emitAll as).finish (s.anyNack as)
  | .print m n, s => ((s.setFb m).setCur n).finish false
  | .init v as bs, s => ((((s.setVsrc v).emitAll as).openSession).emitAll bs).finish (s.anyNack (as ++ bs))

section
variable {s t : State} (hs : SameInputs s t)
include hs

theorem glyph_congr (k : Nat) : t.glyph k = s.glyph k := by
  simp only [State.glyph, hs.cfg, hs.rom]

theorem readFb_congr (a n : Nat) : t.readFb a n = s.readFb a n := by
  simp only [State.readFb, hs.cfg, hs.fb]

end

section
variable {s u : State}

theorem writeFb_inside_of_ok {a : Nat} {bs : List Byte} (h : s.writeFb a bs = .ok u) : a + bs.length ≤ s.cfg.len := by
  unfold State.writeFb at h
  split at h
  · assumption
  · cases h

theorem lineScroll_effect (h : lineScroll s = .ok u) :
    ∃ m n, ∀ t, SameInputs s t → lineScroll t = .ok ((t.setFb m).setCur n) := by
  unfold lineScroll at h
  split at h
  · cases h
  · next old hread =>
    split at h
    · cases h
    · next u' hwrite =>
      refine ⟨s.fb.writeBlock 0 (scrolledBytes s.cfg old), s.cfg.len - s.cfg.rowb, fun t hs => ?_⟩
      have hinside := writeFb_inside_of_ok hwrite
      rw [← hs.cfg] at hinside hread hwrite ⊢
      simp only [lineScroll, readFb_congr hs, hread, writeFb_inside hinside, hs.fb]

theorem newline_effect (h : newline s = .ok u) :
    ∃ m n, ∀ t, SameInputs s t → newline t = .ok ((t.setFb m).setCur n) := by
  by_cases hscrolls : s.cfg.newlineMode = .scroll ∨ s.cfg.len / s.cfg.rowb ≤ s.cur.toNat / s.cfg.rowb + 1
  · rw [newline_of_scrolls hscrolls] at h
    obtain ⟨m, n, hscroll⟩ := lineScroll_effect h
    exact ⟨m, n, fun t hs => (newline_of_scrolls (by rwa [hs.cfg, hs.cur])).trans (hscroll t hs)⟩
  · refine ⟨s.fb, (s.cur.toNat / s.cfg.rowb + 1) * s.cfg.rowb, fun t hs => ?_⟩
    rw [newline_of_not_scrolls (by rwa [hs.cfg, hs.cur]), hs.cfg, hs.cur, ← hs.fb]
    rfl

theorem setFb_setCur_self (s : State) : (s.setFb s.fb).setCur s.cur.toNat = s := by
  simp [State.setFb, State.setCur]

theorem scrollIfFull_effect (h : scrollIfFull s = .ok u) :
    ∃ m n, ∀ t, SameInputs s t → scrollIfFull t = .ok ((t.setFb m).setCur n) := by
  rcases scrollIfFull_cases h with ⟨hroom, -⟩ | ⟨hfull, hscroll⟩
  · refine ⟨s.fb, s.cur.toNat, fun t hs => ?_⟩
    rw [← hs.fb, ← hs.cur, setFb_setCur_self]
    exact if_neg (by rw [hs.cfg, hs.cur]; omega)
  · obtain ⟨m, n, hscrolls⟩ := lineScroll_effect hscroll
    exact ⟨m, n, fun t hs => (if_pos (by rwa [hs.cfg, hs.cur])).trans (hscrolls t hs)⟩

theorem printGlyph_effect {ch : Nat} (h : printGlyph ch s = .next u) :
    ∃ e : Effect, ∀ t, SameInputs s t → printGlyph ch t = .next (e.apply t) := by
  obtain ⟨s1, hcheck, h⟩ := orStop_next h
  obtain ⟨m, n, hchecks⟩ := scrollIfFull_effect hcheck
  cases hcheck.symm.trans (hchecks s (sameInputs_refl s))
  simp only at h
  split at h
  · next hover =>
    refine ⟨.fault (.fbOob (glyphStart s.cfg ((s.setFb m).setCur n).cur.toNat)), fun t hs => ?_⟩
    simp only [printGlyph, hchecks t hs, orStop_ok, hs.cfg, setCur_cur] at hover ⊢
    exact if_pos hover
  · next hfit =>
    obtain ⟨g, hglyph, h⟩ := orStop_next h
    obtain ⟨s2, hwrite, -⟩ := orStop_next h
    have hinside := writeFb_inside_of_ok hwrite
    refine ⟨.print (m.writeBlock (glyphStart s.cfg ((s.setFb m).setCur n).cur.toNat) g)
      (glyphStart s.cfg ((s.setFb m).setCur n).cur.toNat + s.cfg.gw), fun t hs => ?_⟩
    have hwrite := writeFb_inside (s := (t.setFb m).setCur n) (hinside.trans_eq (congrArg Config.len hs.cfg.symm))
    simp only [printGlyph, hchecks t hs, orStop_ok, hs.cfg, setCur_cur, glyph_congr hs, hglyph] at hfit hwrite ⊢
    exact (if_neg hfit).trans (by rw [hwrite]; rfl)

theorem exec_prchr_effect {ch : Nat} (h : exec (.prchr ch) s = .next u) :
    ∃ e : Effect, ∀ t, SameInputs s t → exec (.prchr ch) t = .next (e.apply t) := by
  by_cases hi : s.inited = false
  · exact ⟨.fault (.notInitPrchr ch), fun t hs => exec_prchr_before_init (hs.inited.trans hi) ch⟩
  replace hi := Bool.of_not_eq_false hi
  by_cases hnl : ch = s.cfg.nlCode
  · subst hnl
    rw [exec_prchr_newline hi] at h
    obtain ⟨s1, hnewline, -⟩ := orStop_next h
    obtain ⟨m, n, hnewlines⟩ := newline_effect hnewline
    refine ⟨.print m n, fun t hs => ?_⟩
    rw [← hs.cfg, exec_prchr_newline (hs.inited.trans hi), hnewlines t hs]
    rfl
  by_cases hch : GlyphCode s.cfg ch
  · rw [exec_prchr_of_glyph hi hnl hch] at h
    obtain ⟨e, he⟩ := printGlyph_effect h
    refine ⟨e, fun t hs => ?_⟩
    rw [← hs.cfg] at hnl hch
    rw [exec_prchr_of_glyph (hs.inited.trans hi) hnl hch, he t hs]
  · refine ⟨.print s.fb s.cur.toNat, fun t hs => ?_⟩
    rw [← hs.cfg] at hnl hch
    rw [exec_prchr_of_no_glyph (hs.inited.trans hi) hnl hch, Effect.apply, ← hs.fb, ← hs.cur, setFb_setCur_self]

/-- Every command that goes on does the same in every state with the same inputs. -/
theorem exec_effect {i : Instr} (h : exec i s = .next u) :
    ∃ e : Effect, ∀ t, SameInputs s t → exec i t = .next (e.apply t) := by
  cases i with
  | init v =>
    obtain ⟨space, hspace, -⟩ := orStop_next h
    refine ⟨.init v (initSeq s.cfg v) (clearActions s.cfg space), fun t hs => ?_⟩
    simp only [exec, execInit, glyph_congr hs, hspace, orStop_ok, hs.cfg, anyNack_init]
    rfl
  | clear =>
    obtain ⟨space, hspace, -⟩ := orStop_next h
    refine ⟨.writes (clearActions s.cfg space), fun t hs => ?_⟩
    simp only [exec, execClear, glyph_congr hs, hspace, orStop_ok, hs.cfg]
    rfl
  | setcur row col =>
    by_cases hrange : s.cfg.charRows ≤ row ∨ s.cfg.charColumns ≤ col
    · refine ⟨.fault (.cursorRange row col), fun t hs => ?_⟩
      rw [← hs.cfg] at hrange
      exact if_pos hrange
    · refine ⟨.writes (setcurActions s.cfg row col), fun t hs => ?_⟩
      rw [← hs.cfg] at hrange ⊢
      exact if_neg hrange
  | wrchr ch =>
    by_cases hch : hasGlyph s.cfg ch = true
    · have hsent : execWrchr ch s = _ := if_pos hch
      obtain ⟨g, hglyph, -⟩ := orStop_next (hsent.symm.trans h)
      refine ⟨.writes (g.map .data), fun t hs => ?_⟩
      simp only [exec, execWrchr, hs.cfg, hch, if_true, glyph_congr hs, hglyph, orStop_ok]
      rfl
    · refine ⟨.writes [], fun t hs => ?_⟩
      rw [← hs.cfg] at hch
      rw [Effect.apply, emitAll_nil]
      exact if_neg hch
  | prchr ch => exact exec_prchr_effect h
  | flush =>
    by_cases hi : s.inited = false
    · exact ⟨.fault .notInitFlush, fun t hs => exec_flush_before_init (hs.inited.trans hi)⟩
    · have hsent : execFlush s = _ := if_neg hi
      obtain ⟨bytes, hread, -⟩ := orStop_next (hsent.symm.trans h)
      refine ⟨.writes (windowActions s.cfg ++ bytes.map .data), fun t hs => ?_⟩
      simp only [exec, execFlush, hs.inited, if_neg hi, hs.cfg, readFb_congr hs, hread, orStop_ok]
      rfl

end

/-! ### The statements -/

/-- An effect on two states that hold the same but for the answers to come. -/
theorem apply_setAnswers (e : Effect) (s : State) (answers : List Bool) (count : Nat) :
    let t := e.apply s
    let t' := e.apply { s with acks := answers, draws := count }
    t'.fb = t.fb ∧ t'.cur = t.cur ∧ t'.vsrc = t.vsrc ∧ t'.inited = t.inited ∧ t'.faults = t.faults ∧
      t'.rom = t.rom ∧ t'.cfg = t.cfg ∧ t'.host = t.host ∧
      t'.log.map Event.action = t.log.map Event.action ∧ t'.answeredFault = t.answeredFault := by
  cases e with
  | fault info => exact ⟨rfl, rfl, rfl, rfl, rfl, rfl, rfl, rfl, rfl, rfl⟩
  | writes as =>
    refine ⟨rfl, rfl, rfl, rfl, rfl, rfl, rfl, rfl, ?_, ?_⟩
    · simp [Effect.apply]
    · rw [answeredFault_of_completed rfl, answeredFault_of_completed rfl]
  | print m n => exact ⟨rfl, rfl, rfl, rfl, rfl, rfl, rfl, rfl, rfl, rfl⟩
  | init v as bs =>
    refine ⟨rfl, rfl, rfl, rfl, rfl, rfl, rfl, rfl, ?_, ?_⟩
    · simp [Effect.apply]
    · rw [answeredFault_of_completed rfl, answeredFault_of_completed rfl]

/-- Settles O38: the answers are not among a command's inputs, and its effect passes them to the log, `FAIL` and the
result. -/
theorem answersReachOnlyTheStatus : Obligations.AnswersReachOnlyTheStatus := by
  intro s t i answers count ht
  obtain ⟨e, he⟩ := exec_effect ht
  cases ht.symm.trans (he s (sameInputs_refl s))
  exact ⟨_, he _ ⟨rfl, rfl, rfl, rfl, rfl⟩, apply_setAnswers e s answers count⟩

/-- An effect on two states that hold the same but for `FAULT`. -/
theorem apply_setFaults (e : Effect) (s : State) (f : BitVec 4) :
    { e.apply { s with faults := f } with faults := 0#4 } = { e.apply s with faults := 0#4 } := by
  have hanswered : ∀ n as, State.answered { s with faults := f } n as = s.answered n as := answered_congr rfl rfl
  cases e with
  | fault info => rfl
  | writes as =>
    simp only [Effect.apply, finish_emitAll, hanswered]
    rfl
  | print m n => rfl
  | init v as bs =>
    simp only [Effect.apply, init_finish_eq_afterWrites, hanswered]
    rfl

/-- Settles O42: `FAULT` is not among a command's inputs, and its effect passes it to `FAULT` alone. -/
theorem faultBitsNeverChangeACommand : Obligations.FaultBitsNeverChangeACommand := by
  intro s t i f ht
  obtain ⟨e, he⟩ := exec_effect ht
  cases ht.symm.trans (he s (sameInputs_refl s))
  exact ⟨_, he _ ⟨rfl, rfl, rfl, rfl, rfl⟩, apply_setFaults e s f⟩

end Sys2Proof.Machine
end

section
/-! 43_buffered_print.md R68, R72 and 10_state.md R15: where a glyph lands, and how `CUR` moves. -/

namespace Sys2Proof.Machine

/-! ### A glyph that fits, and one that does not -/

/-- Settles O26: the one outcome of a glyph that fits. -/
theorem prchrPlacesTheGlyph : Obligations.PrchrPlacesTheGlyph := by
  intro s ch h hi hnl hch hfit
  rw [exec_prchr_of_glyph hi hnl hch]
  exact printGlyph_of_fits h hi hch hfit

/-- Settles O28: a glyph that passes `LEN` has no outcome but the fault, raised from the state before the check. -/
theorem prchrPastTheEndFaults : Obligations.PrchrPastTheEndFaults := by
  intro s ch h hi hnl hch hover
  rw [exec_prchr_of_glyph hi hnl hch]
  rcases printGlyph_of_inv h hi hch with ⟨-, hfault⟩ | ⟨hfit, -⟩
  · exact hfault
  · exact absurd hover (Nat.not_lt_of_le hfit)

/-! ### How `CUR` moves (R15) -/

theorem le_glyphStart (c : Config) (n : Nat) : n + 1 ≤ glyphStart c n := by
  unfold glyphStart
  split <;> omega

/-- A newline that does not scroll moves `CUR` forward. -/
theorem le_next_row {n rowb : Nat} (h : 1 ≤ rowb) : n ≤ (n / rowb + 1) * rowb := by
  rw [Nat.mul_comm]
  exact (Nat.lt_mul_div_succ n h).le

theorem one_le_rowb {s : State} (h : s.Inv) : 1 ≤ s.cfg.rowb := by
  obtain ⟨hw, -⟩ := inv_constraints h
  obtain ⟨-, -, -, -, hglyphPages⟩ := inv_fits h
  exact Nat.mul_pos hw hglyphPages

/-- The next row of a newline that does not scroll starts inside the buffer. -/
theorem next_row_le {s : State}
    (h : ¬ (s.cfg.newlineMode = .scroll ∨ s.cfg.len / s.cfg.rowb ≤ s.cur.toNat / s.cfg.rowb + 1)) :
    (s.cur.toNat / s.cfg.rowb + 1) * s.cfg.rowb ≤ s.cfg.len :=
  (Nat.mul_le_mul_right _ (Nat.lt_of_not_le (not_or.mp h).2).le).trans (Nat.div_mul_le_self _ _)

section
variable {s t : State} (h : s.Inv) (hi : s.inited = true)
include h hi

/-- The newline leaves `CUR` in one of two places (R74). -/
theorem prchr_newline_cur (ht : exec (.prchr s.cfg.nlCode) s = .next t) :
    (¬ (s.cfg.newlineMode = .scroll ∨ s.cfg.len / s.cfg.rowb ≤ s.cur.toNat / s.cfg.rowb + 1) ∧
        t.cur.toNat = (s.cur.toNat / s.cfg.rowb + 1) * s.cfg.rowb) ∨
      ((s.cfg.newlineMode = .scroll ∨ s.cfg.len / s.cfg.rowb ≤ s.cur.toNat / s.cfg.rowb + 1) ∧
        t.cur.toNat = s.cfg.len - s.cfg.rowb ∧ ∀ a, t.fb.read a = scrolledRead s a) := by
  obtain ⟨hmoves, hscrolls⟩ := newlineFollowsItsRule s h hi
  by_cases hscroll : s.cfg.newlineMode = .scroll ∨ s.cfg.len / s.cfg.rowb ≤ s.cur.toNat / s.cfg.rowb + 1
  · obtain ⟨m, hnext, hread⟩ := hscrolls hscroll
    cases hnext.symm.trans ht
    exact .inr ⟨hscroll, cur_toNat h (Nat.sub_le _ _), hread⟩
  · cases (hmoves hscroll).symm.trans ht
    exact .inl ⟨hscroll, cur_toNat h (next_row_le hscroll)⟩

/-- PRCHR of a glyph faults, or puts `CUR` past it. -/
theorem prchr_glyph_cur {ch : Nat} (hch : GlyphCode s.cfg ch) (ht : exec (.prchr ch) s = .next t) :
    (s.cfg.len < printIndex s + s.cfg.gw ∧ t.cur = s.cur) ∨
      (t.cur.toNat = printIndex s + s.cfg.gw ∧
        ∀ a, a < printIndex s ∨ printIndex s + s.cfg.gw ≤ a → t.fb.read a = checkedRead s a) := by
  have hnl := ne_nlCode_of_glyph h hch
  by_cases hfit : printIndex s + s.cfg.gw ≤ s.cfg.len
  · obtain ⟨m, hprint, -, hrest⟩ := prchrPlacesTheGlyph s ch h hi hnl hch hfit
    cases hprint.symm.trans ht
    exact .inr ⟨cur_toNat h hfit, hrest⟩
  · cases (prchrPastTheEndFaults s ch h hi hnl hch (Nat.lt_of_not_le hfit)).symm.trans ht
    exact .inl ⟨Nat.lt_of_not_le hfit, rfl⟩

end

/-- Only INIT and PRCHR write `CUR`. -/
theorem exec_cur_of_other {i : Instr} {s t : State} (hinit : ∀ v, i ≠ .init v) (hprint : ∀ ch, i ≠ .prchr ch)
    (ht : exec i s = .next t) : t.cur = s.cur := by
  cases i with
  | init v => exact absurd rfl (hinit v)
  | clear =>
    obtain ⟨as, rfl⟩ := execClear_next ht
    rfl
  | setcur row col => rcases execSetcur_next ht with rfl | ⟨as, rfl⟩ <;> rfl
  | wrchr ch =>
    obtain ⟨as, rfl⟩ := execWrchr_next ht
    rfl
  | prchr ch => exact absurd rfl (hprint ch)
  | flush => rcases execFlush_next ht with ⟨-, rfl⟩ | ⟨-, as, rfl⟩ <;> rfl

/-- INIT puts `CUR` at 0 (R54). -/
theorem execInit_cur {v : VSource} {s t : State} (ht : execInit v s = .next t) : t.cur = 0#11 := by
  obtain ⟨as, bs, rfl⟩ := execInit_next ht
  rfl

/-- How PRCHR moves `CUR`, in R15's words. -/
theorem prchr_cur_cases {s t : State} {ch : Nat} (h : s.Inv) (ht : exec (.prchr ch) s = .next t) :
    s.cur.toNat ≤ t.cur.toNat ∨
      (ch = s.cfg.nlCode ∧
        (s.cfg.newlineMode = .scroll ∨ s.cfg.len / s.cfg.rowb ≤ s.cur.toNat / s.cfg.rowb + 1) ∧
        t.cur.toNat = s.cfg.len - s.cfg.rowb ∧ ∀ a, t.fb.read a = scrolledRead s a) ∨
      (ch ≠ s.cfg.nlCode ∧ s.cfg.len - s.cfg.ovfMargin ≤ s.cur.toNat ∧
        s.cfg.len - s.cfg.rowb + s.cfg.gw < t.cur.toNat ∧
        ∀ a, a < t.cur.toNat - s.cfg.gw ∨ t.cur.toNat ≤ a → t.fb.read a = scrolledRead s a) := by
  by_cases hi : s.inited = false
  · cases (exec_prchr_before_init hi ch).symm.trans ht
    exact .inl le_rfl
  replace hi := Bool.of_not_eq_false hi
  by_cases hnl : ch = s.cfg.nlCode
  · subst hnl
    rcases prchr_newline_cur h hi ht with ⟨-, hcur⟩ | hscroll
    · exact .inl ((le_next_row (one_le_rowb h)).trans_eq hcur.symm)
    · exact .inr (.inl ⟨rfl, hscroll⟩)
  by_cases hch : GlyphCode s.cfg ch
  · rcases prchr_glyph_cur h hi hch ht with ⟨-, hcur⟩ | ⟨hcur, hrest⟩
    · exact .inl (congrArg BitVec.toNat hcur).ge
    have hstart : printCursor s + 1 ≤ printIndex s := le_glyphStart _ _
    by_cases hfull : s.cfg.len - s.cfg.ovfMargin ≤ s.cur.toNat
    · rw [printCursor_full hfull] at hstart
      refine .inr (.inr ⟨hnl, hfull, by omega, fun a ha => ?_⟩)
      rw [hrest a (by omega), checkedRead, if_pos hfull]
    · rw [printCursor_room (Nat.lt_of_not_le hfull)] at hstart
      exact .inl (by omega)
  · cases (exec_prchr_of_no_glyph hi hnl hch).symm.trans ht
    exact .inl le_rfl

/-- Settles O52: INIT zeroes `CUR`, PRCHR moves it as R15 says, and nothing else writes it. -/
theorem cursorMovesForwardExceptAcrossAScroll : Obligations.CursorMovesForwardExceptAcrossAScroll := by
  intro s t w h ht
  refine ⟨fun v hw => ?_, fun hinit hprint => ?_, fun ch hw => ?_⟩
  · rw [runCommand_of_decode hw] at ht
    exact execInit_cur ht
  · rcases runCommand_next ht with ⟨i, hw, ht⟩ | ⟨r, -, rfl⟩
    · exact exec_cur_of_other (fun v hv => hinit v (hv ▸ hw)) (fun ch hch => hprint ch (hch ▸ hw)) ht
    · rfl
  · rw [runCommand_of_decode hw] at ht
    exact prchr_cur_cases h ht

end Sys2Proof.Machine
end

section
/-! 43_buffered_print.md R78 and R79: the cursor's grid in the layout of TC. -/

namespace Sys2Proof.Machine

theorem testLayout_len {c : Config} (h : TestLayout c) : c.len = 1024 ∧ c.rowb = 128 := by
  obtain ⟨hw, hpages, -, hglyphPages, -⟩ := h
  rw [Config.len, Config.rowb, hw, hpages, hglyphPages]
  decide

section
variable {s : State} (htc : TestLayout s.cfg)
include htc

/-- In TC the overflow check scrolls from the end of the last row. -/
theorem testLayout_printCursor :
    printCursor s = if 1022 ≤ s.cur.toNat then 896 else s.cur.toNat := by
  obtain ⟨hlen, hrowb⟩ := testLayout_len htc
  obtain ⟨-, -, -, -, hmargin, -⟩ := htc
  rw [printCursor, hlen, hrowb, hmargin]

/-- In TC the column wrap skips the last two columns of a row. -/
theorem testLayout_glyphStart (n : Nat) :
    glyphStart s.cfg n = if 126 ≤ (n + 1) % 128 then n + 3 else n + 1 := by
  obtain ⟨hw, -, -, -, -, hwrap, hskip⟩ := htc
  rw [glyphStart, hw, hwrap, hskip]

/-- From a slot of the grid a glyph goes to that slot, to the next row's slot 0, or from the end of the last row to its
slot 0. -/
theorem printIndex_of_slot {r j : Nat} (hr : r ≤ 7) (hj : j ≤ 18) (hcur : s.cur.toNat = 128 * r + 7 * j) :
    printIndex s = if j ≤ 17 then 128 * r + 7 * j + 1 else if r < 7 then 128 * (r + 1) + 1 else 897 := by
  have hcolumn : (128 * r + 7 * j + 1) % 128 = 7 * j + 1 := by omega
  rw [printIndex, testLayout_printCursor htc, testLayout_glyphStart htc, hcur]
  by_cases hfull : 1022 ≤ 128 * r + 7 * j
  · rw [if_pos hfull, if_neg (by decide), if_neg (by omega), if_neg (by omega)]
  · rw [if_neg hfull, hcolumn]
    by_cases hslot : j ≤ 17
    · rw [if_neg (by omega), if_pos hslot]
    · rw [if_pos (by omega), if_neg hslot, if_pos (by omega)]
      omega

end

/-- From the grid every glyph fits. -/
theorem printIndex_fits_of_onGrid {s : State} (htc : TestLayout s.cfg) (hgrid : OnGrid s.cur.toNat) :
    printIndex s + s.cfg.gw ≤ s.cfg.len := by
  obtain ⟨r, j, hr, hj, hcur⟩ := hgrid
  obtain ⟨hlen, -⟩ := testLayout_len htc
  have hindex := printIndex_of_slot htc hr hj hcur
  obtain ⟨-, -, hgw, -⟩ := htc
  rw [hindex, hgw, hlen]
  split_ifs <;> omega

/-- Settles O32: the glyph's first index is that of a slot, so it fits, and its bytes stand there. -/
theorem testLayoutPlacesGlyphsInSlots : Obligations.TestLayoutPlacesGlyphsInSlots := by
  intro s ch r j h htc hi hnl hch hr hj hcur
  have hindex := printIndex_of_slot htc hr hj hcur
  have hfit := printIndex_fits_of_onGrid htc ⟨r, j, hr, hj, hcur⟩
  obtain ⟨-, -, hgw, -⟩ := htc
  obtain ⟨m, hprint, hbytes, -⟩ := prchrPlacesTheGlyph s ch h hi hnl hch hfit
  have hend := cur_toNat h hfit
  rw [hgw] at hbytes hend hprint
  refine ⟨_, hprint, rfl, fun hslot => ?_, fun hlast hnot => ?_, fun hlast hbottom => ?_, hbytes⟩
  · rw [if_pos hslot] at hindex
    exact ⟨hend.trans (by omega), by omega⟩
  · rw [if_neg (by omega), if_pos hnot] at hindex
    exact ⟨hend.trans (by omega), hindex⟩
  · rw [if_neg (by omega), if_neg (by omega)] at hindex
    exact ⟨hend.trans (by omega), hindex⟩

/-! ### The grid is kept (R78) -/

theorem onGrid_le {n : Nat} (h : OnGrid n) : n ≤ 1022 := by
  obtain ⟨r, j, hr, hj, rfl⟩ := h
  omega

/-- The start of a row is on the grid. -/
theorem onGrid_row {r : Nat} (hr : r ≤ 7) : OnGrid (128 * r) := ⟨r, 0, hr, by decide, rfl⟩

/-- The end of a glyph is on the grid. -/
theorem onGrid_after_glyph {s : State} (htc : TestLayout s.cfg) (hgrid : OnGrid s.cur.toNat) :
    OnGrid (printIndex s + s.cfg.gw) := by
  obtain ⟨r, j, hr, hj, hcur⟩ := hgrid
  have hindex := printIndex_of_slot htc hr hj hcur
  obtain ⟨-, -, hgw, -⟩ := htc
  rw [hindex, hgw]
  split_ifs with hslot hrow
  · exact ⟨r, j + 1, hr, by omega, by omega⟩
  · exact ⟨r + 1, 1, by omega, by decide, rfl⟩
  · exact ⟨7, 1, le_rfl, by decide, rfl⟩

/-- From the grid FB_OOB has no cause (R85). -/
theorem not_fbOob_of_onGrid {s : State} (htc : TestLayout s.cfg) (hgrid : OnGrid s.cur.toNat) {w : Word} {p : Nat} :
    ¬ FaultCause s w (.fbOob p) := by
  rintro ⟨ch, -, -, -, -, rfl, hover⟩
  exact Nat.not_lt_of_le (printIndex_fits_of_onGrid htc hgrid) hover

/-- Bit 3 is FB_OOB's alone (10_state.md R21). -/
theorem flag_getLsbD_three {k : FaultKind} (h : k ≠ .fbOob) : k.flag.getLsbD 3 = false := by
  cases k with
  | illegal => rfl
  | notInit => rfl
  | cursorRange => rfl
  | fbOob => exact absurd rfl h

section
variable {s t : State} (h : s.Inv) (htc : TestLayout s.cfg) (hgrid : OnGrid s.cur.toNat)
include h htc hgrid

/-- PRCHR leaves `CUR`, or puts it at the start of a row or past a glyph. -/
theorem prchr_onGrid {ch : Nat} (ht : exec (.prchr ch) s = .next t) : OnGrid t.cur.toNat := by
  by_cases hi : s.inited = false
  · cases (exec_prchr_before_init hi ch).symm.trans ht
    exact hgrid
  replace hi := Bool.of_not_eq_false hi
  by_cases hnl : ch = s.cfg.nlCode
  · subst hnl
    obtain ⟨hlen, hrowb⟩ := testLayout_len htc
    rcases prchr_newline_cur h hi ht with ⟨hroom, hcur⟩ | ⟨-, hcur, -⟩
    · rw [hlen, hrowb] at hroom
      rw [hcur, hrowb, Nat.mul_comm]
      exact onGrid_row (by omega)
    · rw [hcur, hlen, hrowb]
      exact onGrid_row (r := 7) le_rfl
  by_cases hch : GlyphCode s.cfg ch
  · rcases prchr_glyph_cur h hi hch ht with ⟨-, hcur⟩ | ⟨hcur, -⟩
    · rwa [hcur]
    · rw [hcur]
      exact onGrid_after_glyph htc hgrid
  · cases (exec_prchr_of_no_glyph hi hnl hch).symm.trans ht
    exact hgrid

theorem runCommand_onGrid {w : Word} (ht : runCommand w s = .next t) : OnGrid t.cur.toNat := by
  rcases runCommand_next ht with ⟨i, -, ht⟩ | ⟨r, -, rfl⟩
  · by_cases hprint : ∃ ch, i = .prchr ch
    · obtain ⟨ch, rfl⟩ := hprint
      exact prchr_onGrid h htc hgrid ht
    by_cases hinit : ∃ v, i = .init v
    · obtain ⟨v, rfl⟩ := hinit
      rw [execInit_cur ht]
      exact onGrid_row (r := 0) (by decide)
    · rwa [exec_cur_of_other (not_exists.mp hinit) (not_exists.mp hprint) ht]
  · exact hgrid

/-- A presented word leaves the FB_OOB bit. -/
theorem runCommand_fbOob_of_onGrid {w : Word} (ht : runCommand w s = .next t) :
    t.faults.getLsbD 3 = s.faults.getLsbD 3 := by
  rcases runCommand_answer ht with ⟨info, rfl⟩ | ⟨-, -, -, -, hfaults⟩
  · have hcause := faultCause_of_reply h ht rfl
    have hkind : info.kind ≠ .fbOob := by
      cases info with
      | fbOob p => exact absurd hcause (not_fbOob_of_onGrid htc hgrid)
      | _ => exact nofun
    rw [withFault_faults, BitVec.getLsbD_or, flag_getLsbD_three hkind, Bool.or_false]
  · rw [hfaults]

end

/-- Settles O53: a presented word keeps the grid and the FB_OOB bit, an idle step everything, and reset puts `CUR` at 0
and clears `FAULT`. -/
theorem testLayoutKeepsTheCursorOnTheGrid : Obligations.TestLayoutKeepsTheCursorOnTheGrid := by
  intro s t h htc hgrid ht
  suffices hkept : OnGrid t.cur.toNat ∧ (s.faults.getLsbD 3 = false → t.faults.getLsbD 3 = false) from
    ⟨hkept.1, onGrid_le hkept.1, hkept.2⟩
  obtain ⟨-, ⟨-, rfl⟩ | ⟨w, rest, -, hrun⟩ | ⟨rest, -, rfl⟩⟩ := step_next ht
  · exact ⟨hgrid, id⟩
  · have hinv := inv_setHost h rest
    exact ⟨runCommand_onGrid hinv htc hgrid hrun, (runCommand_fbOob_of_onGrid hinv htc hgrid hrun).trans⟩
  · exact ⟨onGrid_row (r := 0) (by decide), fun _ => BitVec.getLsbD_zero⟩

end Sys2Proof.Machine
end

section
/-! 42_direct_path.md R65: CLEAR leaves the framebuffer that the next FLUSH sends. -/

namespace Sys2Proof.Machine

/-- Settles O34: FLUSH and CLEAR do nothing but make their writes, so the second FLUSH reads the first one's bytes. -/
theorem flushAfterClearSendsTheSameBytes : Obligations.FlushAfterClearSendsTheSameBytes := by
  intro s h hi
  have hflushed := fun es => inv_afterWrites h es
  have hcleared := fun es es' => inv_afterWrites (hflushed es) es'
  obtain ⟨hlength, -⟩ := fb_bytes_in_session h hi
  refine ⟨_, _, _, _, _, _, exec_flush_in_session h hi, exec_clear_of_configured (hflushed _).configured,
    exec_flush_in_session (hcleared _ _) hi, rfl, rfl, rfl, ?_, ?_, rfl, rfl⟩
  · rw [answered_actions, answered_actions]
    rfl
  · simp only [answered_length, List.length_append, List.length_map] at hlength ⊢
    rw [hlength]
    rfl

end Sys2Proof.Machine
end

section
/-! 41_init.md R58 item 5 and 60_exceptions.md R96: the reference panel after an acknowledged INIT. -/

namespace Sys2Proof.Machine

/-! ### What the panel makes of a list of emissions -/

/-- The panel after emissions that all reach it, in order. -/
def Panel.receiveAll (c : Config) (as : List Action) (p : Panel) : Panel := as.foldl (fun q a => q.receive c a) p

theorem receiveAll_cons (c : Config) (a : Action) (as : List Action) (p : Panel) :
    p.receiveAll c (a :: as) = (p.receive c a).receiveAll c as := rfl

theorem receiveAll_append (c : Config) (as bs : List Action) (p : Panel) :
    p.receiveAll c (as ++ bs) = (p.receiveAll c as).receiveAll c bs := List.foldl_append

theorem panel_run_eq_receiveAll {c : Config} {n : Nat} {es : List Event} {p : Panel}
    (h : ∀ e ∈ es, e.ack ≠ some false) : Panel.run c n es p = p.receiveAll c (es.map Event.action) :=
  panel_run_acknowledged h

/-- The panel is in an addressing mode, on or off, and waits for no argument byte. -/
def Panel.Status (p : Panel) (mode : AddressingMode) (on : Bool) : Prop :=
  p.mode = mode ∧ p.displayOn = on ∧ p.received = []

/-- Emissions that leave the status of a panel that waits for no argument byte. -/
def Quiet (as : List Action) : Prop :=
  ∀ (c : Config) {p : Panel} {mode : AddressingMode} {on : Bool}, p.Status mode on → (p.receiveAll c as).Status mode on

theorem quiet_nil : Quiet [] := fun _ _ _ _ h => h

theorem quiet_append {as bs : List Action} (has : Quiet as) (hbs : Quiet bs) : Quiet (as ++ bs) := by
  intro c p mode on h
  rw [receiveAll_append]
  exact hbs c (has c h)

theorem quiet_cons {a : Action} {as : List Action} (ha : Quiet [a]) (has : Quiet as) : Quiet (a :: as) :=
  quiet_append ha has

theorem quiet_cons_cons {a b : Action} {as : List Action} (hab : Quiet [a, b]) (has : Quiet as) :
    Quiet (a :: b :: as) := quiet_append hab has

theorem quiet_flatMap {α : Type} {f : α → List Action} {xs : List α} (h : ∀ x ∈ xs, Quiet (f x)) :
    Quiet (xs.flatMap f) := by
  induction xs with
  | nil => exact quiet_nil
  | cons x xs ih =>
    obtain ⟨hx, hxs⟩ := List.forall_mem_cons.mp h
    exact quiet_append hx (ih hxs)

theorem quiet_wait (t : Nat) : Quiet [.wait t] := fun _ _ _ _ h => h

/-! ### Data bytes -/

theorem panel_advance_status {p : Panel} {mode : AddressingMode} {on : Bool} (h : p.Status mode on) :
    p.advance.Status mode on := by
  obtain ⟨rfl, hon, hr⟩ := h
  unfold Panel.advance
  split
  · split
    · next hmode => exact ⟨hmode.symm ▸ hmode, hon, hr⟩
    · next hmode => exact ⟨hmode.symm ▸ hmode, hon, hr⟩
  · exact ⟨rfl, hon, hr⟩

/-- A data byte writes the panel's memory and moves its pointers. -/
theorem quiet_data (b : Byte) : Quiet [.data b] := by
  intro c p mode on h
  change (p.data b).Status mode on
  unfold Panel.data
  split
  · exact panel_advance_status h
  · exact panel_advance_status h

theorem quiet_map_data (bs : List Byte) : Quiet (bs.map .data) := by
  rw [List.map_eq_flatMap]
  exact quiet_flatMap fun b _ => quiet_data b

/-! ### Command bytes -/

/-- What a panel that waits for no argument makes of a one-byte command. -/
theorem panel_command_single {c : Config} {b : Byte} {p : Panel} (hargs : panelArguments b = 0) (hr : p.received = []) :
    p.command c b = p.single c b.toNat := by
  simp [Panel.command, hr, hargs]

/-- What it makes of a one-argument command that arrives whole. -/
theorem panel_command_withArgument {c : Config} {n : Byte} {p : Panel} (hargs : panelArguments n = 1)
    (hr : p.received = []) (b : Byte) : (p.command c n).command c b = p.withArgument n.toNat b.toNat := by
  have hcommand : p.command c n = { p with received := [n] } := by simp [Panel.command, hr, hargs]
  rw [hcommand]
  simp only [Panel.command, hargs, if_true, Panel.withArgument, ← hr]
  split_ifs <;> rfl

/-- One-byte commands but the display's own two move a pointer or do nothing. -/
theorem quiet_cmd {b : Byte} (hargs : panelArguments b = 0) (hoff : b.toNat ≠ 0xAE) (hon : b.toNat ≠ 0xAF) :
    Quiet [.cmd b] := by
  intro c p mode on h
  change (p.command c b).Status mode on
  obtain ⟨hmode, hdisplay, hr⟩ := h
  rw [panel_command_single hargs hr, Panel.single, if_neg hoff, if_neg hon]
  split_ifs <;> exact ⟨hmode, hdisplay, hr⟩

/-- One-argument commands but the addressing mode's change nothing the model holds. -/
theorem quiet_setting {n : Byte} (hargs : panelArguments n = 1) (hn : n.toNat ≠ 0x20) (b : Byte) :
    Quiet [.cmd n, .cmd b] := by
  intro c p mode on h
  change ((p.command c n).command c b).Status mode on
  rwa [panel_command_withArgument hargs h.2.2, Panel.withArgument, if_neg (by simp [hn]), if_neg (by simp [hn])]

section
variable {c : Config} {p : Panel} {mode : AddressingMode} {on : Bool} (h : p.Status mode on)
include h

theorem panel_display_on : (p.receive c (.cmd 0xAF#8)).Status mode true := by
  obtain ⟨hmode, -, hr⟩ := h
  rw [Panel.receive, panel_command_single (by decide) hr]
  exact ⟨hmode, rfl, hr⟩

theorem panel_display_off : (p.receive c (.cmd 0xAE#8)).Status mode false := by
  obtain ⟨hmode, -, hr⟩ := h
  rw [Panel.receive, panel_command_single (by decide) hr]
  exact ⟨hmode, rfl, hr⟩

theorem panel_select_horizontal : ((p.receive c (.cmd 0x20#8)).receive c (.cmd 0x00#8)).Status .horizontal on := by
  obtain ⟨-, hon, hr⟩ := h
  rw [Panel.receive, Panel.receive, panel_command_withArgument (by decide) hr]
  exact ⟨rfl, hon, hr⟩

end

/-! ### The default addressing bytes and CLEAR (30_encoding.md R53, 42_direct_path.md R64) -/

/-- The panel's page and pointer commands, by value: no argument follows, and they are not the display's own. -/
theorem quiet_addressing {b : Byte} (h : b.toNat < 0x20 ∨ 0xB0 ≤ b.toNat ∧ b.toNat < 0xC8) : Quiet [.cmd b] := by
  have hargs : ∀ b : Byte, b.toNat < 0x20 ∨ 0xB0 ≤ b.toNat ∧ b.toNat < 0xC8 → panelArguments b = 0 := by decide
  exact quiet_cmd (hargs b h) (by omega) (by omega)

section
variable {c : Config} (hpage : c.pageBase = 0xB0#8) (hlo : c.colLoBase = 0x00#8) (hhi : c.colHiBase = 0x10#8)
include hpage hlo hhi

theorem quiet_setcurActions {r : Nat} (hr : r < 24) (col : Nat) : Quiet (setcurActions c r col) := by
  have hnibble : ∀ n : Fin 16, (0x10#8 ||| BitVec.ofNat 8 n).toNat < 0x20 := by decide
  refine quiet_cons (quiet_addressing (.inr ?_))
    (quiet_cons (quiet_addressing (.inl ?_)) (quiet_addressing (.inl ?_)))
  · rw [pageByte, hpage, BitVec.toNat_add, BitVec.toNat_ofNat, BitVec.toNat_ofNat]
    omega
  · rw [colLoByte, hlo, BitVec.zero_or, BitVec.toNat_ofNat]
    omega
  · rw [colHiByte, hhi]
    exact hnibble ⟨_, Nat.mod_lt _ (by decide)⟩

/-- CLEAR turns the panel on and leaves its addressing mode. -/
theorem panel_after_clear (hoff : c.displayOff = 0xAE#8) (hon : c.displayOn = 0xAF#8) (hpages : c.pages ≤ 24)
    (space : List Byte) {p : Panel} {mode : AddressingMode} {on : Bool} (h : p.Status mode on) :
    (p.receiveAll c (clearActions c space)).Status mode true := by
  have hcells : Quiet ((List.range c.charRows).flatMap fun r =>
      (List.range c.charColumns).flatMap fun col => blankCell c space r col) :=
    quiet_flatMap fun r hmem => quiet_flatMap fun col _ =>
      quiet_append (quiet_setcurActions hpage hlo hhi ((List.mem_range.mp hmem).trans_le hpages) col)
        (quiet_map_data space)
  have htail := quiet_setcurActions hpage hlo hhi (r := 0) (by decide) 0
  rw [clearActions, hoff, hon, List.cons_append, receiveAll_cons, receiveAll_append, receiveAll_cons]
  exact htail c (panel_display_on (hcells c (panel_display_off h)))

end

/-! ### The default configuration sequence (41_init.md R59) -/

/-- The default sequence up to the addressing-mode step, with the charge pump's value. -/
def defaultBefore (t : Nat) (pump : Byte) : List Action :=
  [.wait t, .cmd 0xD5#8, .cmd 0x80#8, .cmd 0xA8#8, .cmd 0x3F#8, .cmd 0xD3#8, .cmd 0x00#8, .cmd 0x40#8, .cmd 0x8D#8,
    .cmd pump]

/-- The default sequence from the addressing-mode step to the display-on step, with the values of the contrast and the
pre-charge. -/
def defaultAfter (contrast charge : Byte) : List Action :=
  [.cmd 0xA1#8, .cmd 0xC8#8, .cmd 0xDA#8, .cmd 0x12#8, .cmd 0x81#8, .cmd contrast, .cmd 0xD9#8, .cmd charge,
    .cmd 0xDB#8, .cmd 0x40#8]

theorem default_initSeq {c : Config} (h : c.initSteps = defaultInitSteps) (v : VSource) : ∃ pump contrast charge : Byte,
    initSeq c v = defaultBefore c.tPowerOn pump ++ Action.cmd 0x20#8 :: Action.cmd 0x00#8 ::
      (defaultAfter contrast charge ++ [Action.cmd 0xAF#8, Action.wait c.tDisplayOn]) := by
  refine ⟨defaultInitSteps.chargePump.value v, defaultInitSteps.contrast.value v, defaultInitSteps.preCharge.value v,
    ?_⟩
  rw [initSeq, h]
  rfl

theorem quiet_defaultBefore (t : Nat) (pump : Byte) : Quiet (defaultBefore t pump) :=
  quiet_cons (quiet_wait t) <|
  quiet_cons_cons (quiet_setting (n := 0xD5#8) (by decide) (by decide) 0x80#8) <|
  quiet_cons_cons (quiet_setting (n := 0xA8#8) (by decide) (by decide) 0x3F#8) <|
  quiet_cons_cons (quiet_setting (n := 0xD3#8) (by decide) (by decide) 0x00#8) <|
  quiet_cons (quiet_cmd (b := 0x40#8) (by decide) (by decide) (by decide)) <|
  quiet_setting (n := 0x8D#8) (by decide) (by decide) pump

theorem quiet_defaultAfter (contrast charge : Byte) : Quiet (defaultAfter contrast charge) :=
  quiet_cons (quiet_cmd (b := 0xA1#8) (by decide) (by decide) (by decide)) <|
  quiet_cons (quiet_cmd (b := 0xC8#8) (by decide) (by decide) (by decide)) <|
  quiet_cons_cons (quiet_setting (n := 0xDA#8) (by decide) (by decide) 0x12#8) <|
  quiet_cons_cons (quiet_setting (n := 0x81#8) (by decide) (by decide) contrast) <|
  quiet_cons_cons (quiet_setting (n := 0xD9#8) (by decide) (by decide) charge) <|
  quiet_setting (n := 0xDB#8) (by decide) (by decide) 0x40#8

/-- The default sequence selects horizontal mode and turns the display on; its other steps are quiet. -/
theorem panel_after_default_initSeq {c : Config} (hsteps : c.initSteps = defaultInitSteps) (v : VSource) {p : Panel}
    {mode : AddressingMode} {on : Bool} (h : p.Status mode on) :
    (p.receiveAll c (initSeq c v)).Status .horizontal true := by
  obtain ⟨pump, contrast, charge, hseq⟩ := default_initSeq hsteps v
  rw [hseq, receiveAll_append, receiveAll_cons, receiveAll_cons, receiveAll_append, receiveAll_cons]
  exact quiet_wait _ c (panel_display_on
    (quiet_defaultAfter contrast charge c (panel_select_horizontal (quiet_defaultBefore _ pump c h))))

/-- Settles O56: INIT's sequence selects horizontal mode, and the CLEAR after it ends with the display on. -/
theorem acknowledgedInitSelectsHorizontalMode : Obligations.AcknowledgedInitSelectsHorizontalMode := by
  intro s t v es p hc hsteps hoff hon hpage hlo hhi hpages _ hr ht hlog hfail
  have hnext := exec_init_of_configured hc v
  have hactions := answered_actions s 0 (initSeq s.cfg v ++ clearActions s.cfg (List.replicate s.cfg.gw 0#8))
  generalize s.answered 0 _ = emitted at hnext hactions
  cases hnext.symm.trans ht
  cases List.append_cancel_left hlog
  rw [panel_run_eq_receiveAll (acknowledged_of_fail_clear (s := s) hfail), hactions, receiveAll_append]
  exact panel_after_clear hpage hlo hhi hoff hon hpages _
    (panel_after_default_initSeq hsteps v (p := p) ⟨rfl, rfl, hr⟩)

end Sys2Proof.Machine
end
